-- ==== Sys2Proof/Word.lean ====
section
/-! DEFINITION. The widths of 00_scope.md R8 and 30_encoding.md R61: everything the spec treats as bits. -/

namespace Sys2Proof

/-- A byte: a general register, a timer, a memory cell (10_state.md R10, R26, R28). -/
abbrev Byte := BitVec 8

/-- A 16-bit word: an instruction word, PC, I, a return address (10_state.md R16, R20, R22). -/
abbrev Word := BitVec 16

/-- The number of a general register, a 4-bit field: every value names a register (10_state.md R10). -/
abbrev RegIdx := BitVec 4

/-- The number of a key, 0 to 15 (60_exceptions.md R183). -/
abbrev KeyIdx := BitVec 4

/-- A nibble of the instruction word (30_encoding.md R61). -/
abbrev Nibble := BitVec 4

/-- A 12-bit address field `nnn` (30_encoding.md R61). -/
abbrev Addr12 := BitVec 12

end Sys2Proof
end

