-- ==== Sys2Proof/Syntax.lean ====
section
/-! DEFINITION. The 34 instructions of 30_encoding.md R64, one constructor per row of opcode_table.json, in the
table's order. The four instructions with bits the decoder ignores (R69) carry those bits as a last argument `ign`, so
that no bit of a word is lost; no meaning looks at it. SHR and SHL carry the operand `y` that R69 says is decoded
and not used. -/

namespace Sys2Proof

inductive Instr where
  /-- row 1 `CLS`; `ign` is bits 11:8 -/
  | cls (ign : Nibble)
  /-- row 2 `RET`; `ign` is bits 11:8 -/
  | ret (ign : Nibble)
  /-- row 3 `JP nnn` -/
  | jp (nnn : Addr12)
  /-- row 4 `CALL nnn` -/
  | call (nnn : Addr12)
  /-- row 5 `SE Vx, kk` -/
  | seImm (x : RegIdx) (kk : Byte)
  /-- row 6 `SNE Vx, kk` -/
  | sneImm (x : RegIdx) (kk : Byte)
  /-- row 7 `SE Vx, Vy`; `ign` is bits 3:0 -/
  | seReg (x y : RegIdx) (ign : Nibble)
  /-- row 8 `LD Vx, kk` -/
  | ldImm (x : RegIdx) (kk : Byte)
  /-- row 9 `ADD Vx, kk` -/
  | addImm (x : RegIdx) (kk : Byte)
  /-- row 10 `LD Vx, Vy` -/
  | ldReg (x y : RegIdx)
  /-- row 11 `OR Vx, Vy` -/
  | orReg (x y : RegIdx)
  /-- row 12 `AND Vx, Vy` -/
  | andReg (x y : RegIdx)
  /-- row 13 `XOR Vx, Vy` -/
  | xorReg (x y : RegIdx)
  /-- row 14 `ADD Vx, Vy` -/
  | addReg (x y : RegIdx)
  /-- row 15 `SUB Vx, Vy` -/
  | subReg (x y : RegIdx)
  /-- row 16 `SHR Vx`; `y` is decoded and not used -/
  | shr (x y : RegIdx)
  /-- row 17 `SUBN Vx, Vy` -/
  | subnReg (x y : RegIdx)
  /-- row 18 `SHL Vx`; `y` is decoded and not used -/
  | shl (x y : RegIdx)
  /-- row 19 `SNE Vx, Vy`; `ign` is bits 3:0 -/
  | sneReg (x y : RegIdx) (ign : Nibble)
  /-- row 20 `LD I, nnn` -/
  | ldI (nnn : Addr12)
  /-- row 21 `JP V0, nnn` -/
  | jpV0 (nnn : Addr12)
  /-- row 22 `RND Vx, kk` -/
  | rnd (x : RegIdx) (kk : Byte)
  /-- row 23 `DRW Vx, Vy, n` -/
  | drw (x y : RegIdx) (n : Nibble)
  /-- row 24 `SKP Vx` -/
  | skp (x : RegIdx)
  /-- row 25 `SKNP Vx` -/
  | sknp (x : RegIdx)
  /-- row 26 `LD Vx, DT` -/
  | ldVxDt (x : RegIdx)
  /-- row 27 `LD Vx, K` -/
  | ldVxK (x : RegIdx)
  /-- row 28 `LD DT, Vx` -/
  | ldDtVx (x : RegIdx)
  /-- row 29 `LD ST, Vx` -/
  | ldStVx (x : RegIdx)
  /-- row 30 `ADD I, Vx` -/
  | addI (x : RegIdx)
  /-- row 31 `LD F, Vx` -/
  | ldF (x : RegIdx)
  /-- row 32 `LD B, Vx` -/
  | ldB (x : RegIdx)
  /-- row 33 `LD [I], Vx` -/
  | ldMemVx (x : RegIdx)
  /-- row 34 `LD Vx, [I]` -/
  | ldVxMem (x : RegIdx)
deriving DecidableEq, Repr

end Sys2Proof
end

