-- ==== Sys2Proof/WellFormed.lean ====
section
/-! DEFINITION. Which instructions are in canonical form: those an assembler emits, with every ignored bit zero
(30_encoding.md R69, 70_reset_and_hazards.md R214). The field types already rule out every operand value the encoding
cannot hold. The hardware runs the other forms too (R69, decision D14), so neither the decoder nor `step` asks this
question; statements about running or decoding an instruction hold for every form. -/

namespace Sys2Proof

/-- The canonical encodings of 30_encoding.md R69: bits 11:8 of CLS and RET, bits 3:0 of the register compares and the
unused `y` of the two shifts are zero; every other form is canonical as it stands. -/
def Instr.wellFormed : Instr → Bool
  | .cls ign => ign == 0
  | .ret ign => ign == 0
  | .jp _ => true
  | .call _ => true
  | .seImm _ _ => true
  | .sneImm _ _ => true
  | .seReg _ _ ign => ign == 0
  | .ldImm _ _ => true
  | .addImm _ _ => true
  | .ldReg _ _ => true
  | .orReg _ _ => true
  | .andReg _ _ => true
  | .xorReg _ _ => true
  | .addReg _ _ => true
  | .subReg _ _ => true
  | .shr _ y => y == 0
  | .subnReg _ _ => true
  | .shl _ y => y == 0
  | .sneReg _ _ ign => ign == 0
  | .ldI _ => true
  | .jpV0 _ => true
  | .rnd _ _ => true
  | .drw _ _ _ => true
  | .skp _ => true
  | .sknp _ => true
  | .ldVxDt _ => true
  | .ldVxK _ => true
  | .ldDtVx _ => true
  | .ldStVx _ => true
  | .addI _ => true
  | .ldF _ => true
  | .ldB _ => true
  | .ldMemVx _ => true
  | .ldVxMem _ => true

end Sys2Proof
end

