-- ==== Sys2Proof/Decode.lean ====
section
/-! DEFINITION. The decode table of 30_encoding.md R64, the decoder it gives (pure, total, R71) and, after it, the
encoder written from the same table. A word that selects no row is rejected by name (`unrecognized`, R70). -/

namespace Sys2Proof

/-- `x = w[11:8]` (30_encoding.md R61). -/
def fieldX (w : Word) : RegIdx := w.extractLsb' 8 4
/-- `y = w[7:4]` (30_encoding.md R61). -/
def fieldY (w : Word) : RegIdx := w.extractLsb' 4 4
/-- `n = w[3:0]` (30_encoding.md R61). -/
def fieldN (w : Word) : Nibble := w.extractLsb' 0 4
/-- `kk = w[7:0]` (30_encoding.md R61). -/
def fieldKK (w : Word) : Byte := w.extractLsb' 0 8
/-- `nnn = w[11:0]` (30_encoding.md R61). -/
def fieldNNN (w : Word) : Addr12 := w.extractLsb' 0 12

/-- A row of the decode table: its mnemonic as opcode_table.json spells it, its mask and match, and the instruction
with the row's operand fields taken from the word. -/
structure Row where
  mnemonic : String
  mask : Word
  pat : Word
  build : Word → Instr

/-- "A word selects a row when `(w & mask) = match`" (30_encoding.md R64). -/
def Row.selects (r : Row) (w : Word) : Bool := w &&& r.mask == r.pat

/-- Rows 1 to 9 of R64. -/
def rowsFlow : List Row := [
  ⟨"CLS", 0xF0FF, 0x00E0, fun w => .cls (fieldX w)⟩,
  ⟨"RET", 0xF0FF, 0x00EE, fun w => .ret (fieldX w)⟩,
  ⟨"JP_nnn", 0xF000, 0x1000, fun w => .jp (fieldNNN w)⟩,
  ⟨"CALL_nnn", 0xF000, 0x2000, fun w => .call (fieldNNN w)⟩,
  ⟨"SE_Vx__kk", 0xF000, 0x3000, fun w => .seImm (fieldX w) (fieldKK w)⟩,
  ⟨"SNE_Vx__kk", 0xF000, 0x4000, fun w => .sneImm (fieldX w) (fieldKK w)⟩,
  ⟨"SE_Vx__Vy", 0xF000, 0x5000, fun w => .seReg (fieldX w) (fieldY w) (fieldN w)⟩,
  ⟨"LD_Vx__kk", 0xF000, 0x6000, fun w => .ldImm (fieldX w) (fieldKK w)⟩,
  ⟨"ADD_Vx__kk", 0xF000, 0x7000, fun w => .addImm (fieldX w) (fieldKK w)⟩]

/-- Rows 10 to 18 of R64, family 8. PRESUMED (the spec's G1): the low-nibble selectors are from general knowledge, R66;
log entry 8. -/
def rowsAlu : List Row := [
  ⟨"LD_Vx__Vy", 0xF00F, 0x8000, fun w => .ldReg (fieldX w) (fieldY w)⟩,
  ⟨"OR_Vx__Vy", 0xF00F, 0x8001, fun w => .orReg (fieldX w) (fieldY w)⟩,
  ⟨"AND_Vx__Vy", 0xF00F, 0x8002, fun w => .andReg (fieldX w) (fieldY w)⟩,
  ⟨"XOR_Vx__Vy", 0xF00F, 0x8003, fun w => .xorReg (fieldX w) (fieldY w)⟩,
  ⟨"ADD_Vx__Vy", 0xF00F, 0x8004, fun w => .addReg (fieldX w) (fieldY w)⟩,
  ⟨"SUB_Vx__Vy", 0xF00F, 0x8005, fun w => .subReg (fieldX w) (fieldY w)⟩,
  ⟨"SHR_Vx", 0xF00F, 0x8006, fun w => .shr (fieldX w) (fieldY w)⟩,
  ⟨"SUBN_Vx__Vy", 0xF00F, 0x8007, fun w => .subnReg (fieldX w) (fieldY w)⟩,
  ⟨"SHL_Vx", 0xF00F, 0x800E, fun w => .shl (fieldX w) (fieldY w)⟩]

/-- Rows 19 to 25 of R64. -/
def rowsMid : List Row := [
  ⟨"SNE_Vx__Vy", 0xF000, 0x9000, fun w => .sneReg (fieldX w) (fieldY w) (fieldN w)⟩,
  ⟨"LD_I__nnn", 0xF000, 0xA000, fun w => .ldI (fieldNNN w)⟩,
  ⟨"JP_V0__nnn", 0xF000, 0xB000, fun w => .jpV0 (fieldNNN w)⟩,
  ⟨"RND_Vx__kk", 0xF000, 0xC000, fun w => .rnd (fieldX w) (fieldKK w)⟩,
  ⟨"DRW_Vx__Vy__n", 0xF000, 0xD000, fun w => .drw (fieldX w) (fieldY w) (fieldN w)⟩,
  ⟨"SKP_Vx", 0xF0FF, 0xE09E, fun w => .skp (fieldX w)⟩,
  ⟨"SKNP_Vx", 0xF0FF, 0xE0A1, fun w => .sknp (fieldX w)⟩]

/-- Rows 26 to 34 of R64, family F. PRESUMED (the spec's G2): the low-byte selectors are from general knowledge, R68;
log entry 8. -/
def rowsF : List Row := [
  ⟨"LD_Vx__DT", 0xF0FF, 0xF007, fun w => .ldVxDt (fieldX w)⟩,
  ⟨"LD_Vx__K", 0xF0FF, 0xF00A, fun w => .ldVxK (fieldX w)⟩,
  ⟨"LD_DT__Vx", 0xF0FF, 0xF015, fun w => .ldDtVx (fieldX w)⟩,
  ⟨"LD_ST__Vx", 0xF0FF, 0xF018, fun w => .ldStVx (fieldX w)⟩,
  ⟨"ADD_I__Vx", 0xF0FF, 0xF01E, fun w => .addI (fieldX w)⟩,
  ⟨"LD_F__Vx", 0xF0FF, 0xF029, fun w => .ldF (fieldX w)⟩,
  ⟨"LD_B__Vx", 0xF0FF, 0xF033, fun w => .ldB (fieldX w)⟩,
  ⟨"LD__I___Vx", 0xF0FF, 0xF055, fun w => .ldMemVx (fieldX w)⟩,
  ⟨"LD_Vx___I", 0xF0FF, 0xF065, fun w => .ldVxMem (fieldX w)⟩]

/-- The decode table of 30_encoding.md R64, all 34 rows in its order. -/
def rows : List Row := rowsFlow ++ rowsAlu ++ rowsMid ++ rowsF

/-- What decoding a word gives: "either a valid operation descriptor or an explicit unrecognized instruction result"
(30_encoding.md R71). -/
inductive Decoded where
  | instr (i : Instr)
  | unrecognized (w : Word)
deriving DecidableEq, Repr

/-- The decoder: pure and total on the 16-bit word (30_encoding.md R64, R71). -/
def decodeWord (w : Word) : Decoded :=
  match rows.find? (fun r => r.selects w) with
  | some r => .instr (r.build w)
  | none => .unrecognized w

/-- The instruction word of two fetched bytes, the byte at the lower address high (20_memory.md R44). -/
def wordOfBytes (hi lo : Byte) : Word := hi ++ lo

/-- What decoding a run of bytes gives, with the bytes left over. -/
inductive DecodedBytes where
  | instr (i : Instr) (rest : List Byte)
  | unrecognized (w : Word) (rest : List Byte)
  /-- fewer than the two bytes every instruction has (30_encoding.md R60) -/
  | truncated (bytes : List Byte)
deriving DecidableEq, Repr

/-- Decoding any bytes: the first two, big-endian, are the instruction (30_encoding.md R60, 20_memory.md R44). -/
def decodeBytes : List Byte → DecodedBytes
  | hi :: lo :: rest =>
    match decodeWord (wordOfBytes hi lo) with
    | .instr i => .instr i rest
    | .unrecognized w => .unrecognized w rest
  | bytes => .truncated bytes

/-- The word whose bits are `w`, numbered as opcode_table.json numbers them: bit 0 is the word's least significant bit,
and every bit above the `nbits` given is 0. -/
def tableWord (nbits w : Nat) : Word := BitVec.ofNat 16 (w % 2 ^ nbits)

/-- The high byte of a word, the one at the lower address (20_memory.md R44). -/
def highByte (w : Word) : Byte := w.extractLsb' 8 8

/-- The low byte of a word. -/
def lowByte (w : Word) : Byte := w.extractLsb' 0 8

/-- The instruction this decoder reads from an instruction whose bits are `w` as the opcode table numbers them: the
word is laid out as the hardware stores it, its high byte first. -/
def decodeTableWord (nbits w : Nat) : Option Instr :=
  match decodeBytes [highByte (tableWord nbits w), lowByte (tableWord nbits w)] with
  | .instr i _ => some i
  | .unrecognized _ _ => none
  | .truncated _ => none

/-- A word of format A: `op` and a 12-bit address (30_encoding.md R62). -/
def wordA (op : Nibble) (nnn : Addr12) : Word := (op.setWidth 16 <<< 12) ||| nnn.setWidth 16

/-- A word of formats XK, XS and E: `op`, bits 11:8, and a byte, operand or selector (30_encoding.md R62). -/
def wordXK (op x : Nibble) (kk : Byte) : Word := (op.setWidth 16 <<< 12) ||| (x.setWidth 16 <<< 8) ||| kk.setWidth 16

/-- A word of formats XY and XYN: `op`, two registers and a nibble, operand or selector (30_encoding.md R62). -/
def wordXYN (op x y n : Nibble) : Word :=
  (op.setWidth 16 <<< 12) ||| (x.setWidth 16 <<< 8) ||| (y.setWidth 16 <<< 4) ||| n.setWidth 16

/-- The encoder: the word of each instruction, its fields side by side as the patterns of 30_encoding.md R64 show
them. -/
def encode : Instr → Word
  | .cls ign => wordXK 0x0 ign 0xE0
  | .ret ign => wordXK 0x0 ign 0xEE
  | .jp nnn => wordA 0x1 nnn
  | .call nnn => wordA 0x2 nnn
  | .seImm x kk => wordXK 0x3 x kk
  | .sneImm x kk => wordXK 0x4 x kk
  | .seReg x y ign => wordXYN 0x5 x y ign
  | .ldImm x kk => wordXK 0x6 x kk
  | .addImm x kk => wordXK 0x7 x kk
  | .ldReg x y => wordXYN 0x8 x y 0x0
  | .orReg x y => wordXYN 0x8 x y 0x1
  | .andReg x y => wordXYN 0x8 x y 0x2
  | .xorReg x y => wordXYN 0x8 x y 0x3
  | .addReg x y => wordXYN 0x8 x y 0x4
  | .subReg x y => wordXYN 0x8 x y 0x5
  | .shr x y => wordXYN 0x8 x y 0x6
  | .subnReg x y => wordXYN 0x8 x y 0x7
  | .shl x y => wordXYN 0x8 x y 0xE
  | .sneReg x y ign => wordXYN 0x9 x y ign
  | .ldI nnn => wordA 0xA nnn
  | .jpV0 nnn => wordA 0xB nnn
  | .rnd x kk => wordXK 0xC x kk
  | .drw x y n => wordXYN 0xD x y n
  | .skp x => wordXK 0xE x 0x9E
  | .sknp x => wordXK 0xE x 0xA1
  | .ldVxDt x => wordXK 0xF x 0x07
  | .ldVxK x => wordXK 0xF x 0x0A
  | .ldDtVx x => wordXK 0xF x 0x15
  | .ldStVx x => wordXK 0xF x 0x18
  | .addI x => wordXK 0xF x 0x1E
  | .ldF x => wordXK 0xF x 0x29
  | .ldB x => wordXK 0xF x 0x33
  | .ldMemVx x => wordXK 0xF x 0x55
  | .ldVxMem x => wordXK 0xF x 0x65

/-- The bytes of an instruction as memory holds them, the high byte at the lower address (20_memory.md R44). -/
def encodeBytes (i : Instr) : List Byte := [highByte (encode i), lowByte (encode i)]

end Sys2Proof
end

