-- ==== Sys2Proof/Config.lean ====
section
/-! DEFINITION. What is fixed for the machine and what stays free (00_scope.md R6, R7). The two parameter tables
FONT and MEM_INIT are arguments of `State.powerOn`; their types stand here, their defaults in Machine/Font.lean, where a
later repair may mend them. -/

namespace Sys2Proof.Config

/-- The size of the memory in bytes (00_scope.md R6). -/
def memSize : Nat := 4096

/-- Where programs are loaded and where PC starts (00_scope.md R6). -/
def programBase : Nat := 0x200

/-- The largest program, 4096 - 0x200 bytes (00_scope.md R6, 60_exceptions.md R185). -/
def maxProgram : Nat := 3584

/-- The parameter FONT[1..15]: the 75 bytes of the glyphs 1 to F, five to a glyph (00_scope.md R7, decision D15). -/
abbrev Glyphs := Vector (Vector Byte 5) 15

/-- The parameter MEM_INIT: the 4016 bytes of memory 0x050..0xFFF at power-on (00_scope.md R7, decision D6). -/
abbrev MemInit := Vector Byte 4016

/-- FREE VALUE: `rnd n` is the random byte the environment supplies for the n-th execution of RND (42_alu.md R131,
92_eei_decisions.md D19). No body: nothing can be proved of its value. Log entry 4. -/
opaque rnd : Nat → Byte

end Sys2Proof.Config
end

