-- ==== Sys2Proof/Machine/Font.lean ====
section
/-! DEFINITION. The open parameters FONT and MEM_INIT of 00_scope.md R7: the font a choice of glyphs gives, the spec's
recommended defaults of both (20_memory.md R42, 70_reset_and_hazards.md R201), and the byte an unlisted address reads
as. -/

namespace Sys2Proof.Machine

/-- Glyph 0, fixed by the source: the first five bytes of every font (20_memory.md R42). -/
def glyphZero : List Byte := [0xF0, 0x90, 0x90, 0x90, 0xF0]

/-- FONT: 80 bytes, glyph `d` at `5 * d`; glyph 0 is fixed, the glyphs 1 to F are the parameter (00_scope.md R7,
20_memory.md R42, decision D15). -/
def font (g : Config.Glyphs) : List Byte := glyphZero ++ g.toList.flatMap Vector.toList

/-- The spec's default of FONT[1..15], the table of 20_memory.md R42. PRESUMED, from general knowledge (G5); log
entry 6. -/
def defaultGlyphs : Config.Glyphs := #v[
  #v[0x20, 0x60, 0x20, 0x20, 0x70],
  #v[0xF0, 0x10, 0xF0, 0x80, 0xF0],
  #v[0xF0, 0x10, 0xF0, 0x10, 0xF0],
  #v[0x90, 0x90, 0xF0, 0x10, 0x10],
  #v[0xF0, 0x80, 0xF0, 0x10, 0xF0],
  #v[0xF0, 0x80, 0xF0, 0x90, 0xF0],
  #v[0xF0, 0x10, 0x20, 0x40, 0x40],
  #v[0xF0, 0x90, 0xF0, 0x90, 0xF0],
  #v[0xF0, 0x90, 0xF0, 0x10, 0xF0],
  #v[0xF0, 0x90, 0xF0, 0x90, 0x90],
  #v[0xE0, 0x90, 0xE0, 0x90, 0xE0],
  #v[0xF0, 0x80, 0x80, 0x80, 0xF0],
  #v[0xE0, 0x90, 0x90, 0x90, 0xE0],
  #v[0xF0, 0x80, 0xF0, 0x80, 0xF0],
  #v[0xF0, 0x80, 0xF0, 0x80, 0x80]]

/-- The spec's default of MEM_INIT, all zero (70_reset_and_hazards.md R201, decision D6); log entry 5. -/
def defaultMemInit : Config.MemInit := Vector.replicate 4016 0

/-- What an unlisted address reads as: the power-on byte under the two defaults (DESIGN CHOICE of the representation,
log entry 5). A machine with another font or MEM_INIT lists the bytes that differ (`State.powerOn`). -/
def initialByte (a : Nat) : Byte := if a < 0x50 then (font defaultGlyphs).getD a 0 else 0

end Sys2Proof.Machine
end

