-- ==== Sys2Proof/Machine/State.lean ====
section
/-! DEFINITION. The state of the core (10_state.md, every element of its overview table) and four fields of the
model's own, the events of 00_scope.md R3 and the outputs of R5, the reasons a step can stop, and the state at
power-on (70_reset_and_hazards.md R201). -/

namespace Sys2Proof.Machine

/-- Memory: the bytes that differ from `initialByte`, by address, addresses strictly rising
(20_memory.md R40). An unlisted address reads as `initialByte` (Machine/Font.lean). -/
abbrev Memory := List Host.Cell

/-- The display buffer, `D[y][x]`: 32 rows of 64 one-bit pixels (10_state.md R29). -/
abbrev Display := Vector (Vector Bool 64) 32

/-- The atomic events of 00_scope.md R3. -/
inductive Event where
  /-- one instruction cycle (40_instruction_cycle.md R80) -/
  | instrTick
  /-- one timer cycle (60_exceptions.md R181) -/
  | timerTick
  /-- input delivery: key `k` is now pressed or released (60_exceptions.md R183) -/
  | setKey (k : KeyIdx) (pressed : Bool)
  /-- program load (60_exceptions.md R185) -/
  | load (bytes : List Byte)
  /-- 60_exceptions.md R179 -/
  | start
  /-- 60_exceptions.md R180 -/
  | stop
  /-- 70_reset_and_hazards.md R200 -/
  | reset
  /-- read the display (60_exceptions.md R186) -/
  | snapshot
deriving DecidableEq, Repr

/-- What leaves the core (00_scope.md R5). -/
inductive Output where
  /-- the report of an unrecognized word `w` fetched from `pc` (40_instruction_cycle.md R85, 60_exceptions.md R171) -/
  | unrecognized (w pc : Word)
  /-- success or failure of a `Load` (60_exceptions.md R185) -/
  | loadResult (success : Bool)
  /-- a copy of the whole display buffer (60_exceptions.md R186) -/
  | snapshot (d : Display)
deriving DecidableEq, Repr

/-- The machine. The fields up to `waitReg` are the spec's state, complete by 10_state.md R37; the last four are the
model's own. -/
structure State where
  /-- V0..VF (R10); VF = V[15] doubles as the flag (R14) -/
  v : Vector Byte 16
  /-- PC (R16) -/
  pc : Word
  /-- the address register I (R20) -/
  i : Word
  /-- STACK[0..15], return addresses (R22) -/
  stack : Vector Word 16
  /-- SP, 0 to 15, saturating (R23) -/
  sp : BitVec 4
  /-- DT, the delay timer (R26) -/
  dt : Byte
  /-- ST, the sound timer (R27) -/
  st : Byte
  /-- MEM (R28) -/
  mem : Memory
  /-- D (R29) -/
  display : Display
  /-- KEYS, 1 (true) meaning pressed (R31) -/
  keys : Vector Bool 16
  /-- LASTKEY, the most recent press not yet consumed (R32) -/
  lastKey : Option KeyIdx
  /-- RUN: true is Running, false is Stopped (R33) -/
  run : Bool
  /-- WAIT: the machine is in the key-wait state (R34) -/
  wait : Bool
  /-- WAITREG: the register a key wait is for (R35) -/
  waitReg : RegIdx
  /-- the model's own: how many random bytes have been drawn; names the next free value (42_alu.md R131, log entry 4) -/
  draws : Nat
  /-- the model's own: events the environment has sent and the core has not yet performed, oldest first (00_scope.md R3,
  R4, log entry 1) -/
  pending : List Event
  /-- the model's own: the outputs that have left the core, newest first (00_scope.md R5, log entry 3) -/
  outputs : List Output
  /-- the model's own: the parameter FONT[1..15] of this machine (00_scope.md R7), fixed when it is constructed and written
  by no step; a Reset reloads the font from it (20_memory.md R42, log entry 21) -/
  glyphs : Config.Glyphs
deriving DecidableEq, Repr

/-- The reasons the machine could stop with a fault: NONE. "The core raises no synchronous exception"
(60_exceptions.md R170) and every instruction completes in every state (40_instruction_cycle.md R90), so the type is
empty; log entry 20. -/
inductive Fault
deriving DecidableEq, Repr

/-- The reasons an instruction could be refused. -/
inductive Refusal where
  /-- The host's name for an instruction with no meaning yet. Raised by no arm of this model: all 34 instructions have
  their meaning. Safe where it is raised (the model stops and the hardware goes on). -/
  | notModelled (mnemonic : String)
deriving DecidableEq, Repr

/-- A display with every pixel off (10_state.md R30). -/
def blankDisplay : Display := Vector.replicate 32 (Vector.replicate 64 false)

/-- The machine right after power-on: what `Reset` leaves, Stopped, memory as at power-on
(70_reset_and_hazards.md R200, R201), under the defaults of the two open parameters; for every other choice of them see
`State.powerOn`. Draws, events and outputs, of the model's own, start empty (DESIGN CHOICE, log entries 1, 3, 4). -/
def State.reset : State where
  v := Vector.replicate 16 0
  pc := 0x0200
  i := 0
  stack := Vector.replicate 16 0
  sp := 0
  dt := 0
  st := 0
  mem := []
  display := blankDisplay
  keys := Vector.replicate 16 false
  lastKey := none
  run := false
  wait := false
  waitReg := 0
  draws := 0
  pending := []
  outputs := []
  glyphs := defaultGlyphs

end Sys2Proof.Machine
end

