-- ==== Sys2Proof/Machine/Memory.lean ====
section
/-! DEFINITION. The operations on the memory list and its one canonical form. -/

namespace Sys2Proof.Machine

/-- The byte at an address: the listed one, or the power-on byte where nothing is listed. -/
def Memory.read : Memory → Nat → Byte
  | [], a => initialByte a
  | (k, b) :: rest, a => if k = a then b else Memory.read rest a

/-- Puts a cell at its place among rising addresses. -/
def Memory.insertCell (a : Nat) (b : Byte) : Memory → Memory
  | [] => [(a, b)]
  | (k, c) :: rest => if a < k then (a, b) :: (k, c) :: rest else (k, c) :: Memory.insertCell a b rest

/-- Writes one byte, keeping the canonical form: an address that again holds its power-on byte is not listed. -/
def Memory.write (m : Memory) (a : Nat) (b : Byte) : Memory :=
  if b = initialByte a then m.filter (fun c => c.1 != a)
  else Memory.insertCell a b (m.filter (fun c => c.1 != a))

/-- Writes a run of bytes at rising addresses. -/
def Memory.writeBytes (m : Memory) (a : Nat) : List Byte → Memory
  | [] => m
  | b :: bs => Memory.writeBytes (m.write a b) (a + 1) bs

/-- The cells a run of bytes at rising addresses needs. -/
def Memory.cellsOf (a : Nat) : List Byte → Memory
  | [] => []
  | b :: bs => if b = initialByte a then Memory.cellsOf (a + 1) bs else (a, b) :: Memory.cellsOf (a + 1) bs

/-- Replaces the program region 0x200..0xFFF by a program of at most 3584 bytes and zeroes after it, leaving the bytes
below as they are (60_exceptions.md R185). -/
def Memory.replaceProgram (m : Memory) (bytes : List Byte) : Memory :=
  m.filter (fun c => decide (c.1 < Config.programBase)) ++
    Memory.cellsOf Config.programBase (bytes ++ List.replicate (Config.maxProgram - bytes.length) 0)

/-- Addresses at least `lo`, strictly rising, inside the memory, and no byte listed that an unlisted address reads as. -/
def Memory.wfFrom : Nat → Memory → Bool
  | _, [] => true
  | lo, (a, b) :: rest =>
    decide (lo ≤ a) && decide (a < Config.memSize) && decide (b ≠ initialByte a) && Memory.wfFrom (a + 1) rest

/-- The canonical form of memory. -/
def Memory.wf (m : Memory) : Bool := Memory.wfFrom 0 m

end Sys2Proof.Machine
end

