-- ==== Sys2Proof/Machine/Ops.lean ====
section
/-! DEFINITION. The named operations over registers, memory, the call stack and the outputs. There is no operation that
takes an exception or returns from one: the core has neither (60_exceptions.md R170, R175, R176). -/

namespace Sys2Proof.Machine

/-- `V[x]` (10_state.md R10). -/
def State.reg (s : State) (x : RegIdx) : Byte := s.v[x.toNat]'x.isLt

/-- `V[x] <- b` (10_state.md R11). -/
def State.setReg (s : State) (x : RegIdx) (b : Byte) : State := { s with v := s.v.set x.toNat b x.isLt }

/-- The number of VF, the register that serves as the flag (10_state.md R14). -/
def flagReg : RegIdx := 0xF

/-- `VF <- b` (10_state.md R14). -/
def State.setFlag (s : State) (b : Byte) : State := s.setReg flagReg b

/-- `PC <- t` (10_state.md R17). -/
def State.setPc (s : State) (t : Word) : State := { s with pc := t }

/-- `I <- t` (10_state.md R20). -/
def State.setI (s : State) (t : Word) : State := { s with i := t }

/-- The advance, `PC <- (PC + 2) mod 65536` (40_instruction_cycle.md R84). -/
def State.advance (s : State) : State := s.setPc (s.pc + 2)

/-- What `execute` of a skip does: 2 more when its condition holds (40_instruction_cycle.md R88). -/
def State.skipIf (s : State) (c : Bool) : State := if c then s.setPc (s.pc + 2) else s

/-- The memory address of a 16-bit address: its low 12 bits (20_memory.md R43, decision D12). -/
def memIndex (addr : Word) : Nat := addr.toNat % Config.memSize

/-- `MemRead(addr, 1)` (00_scope.md R8, 20_memory.md R43). -/
def State.memRead (s : State) (addr : Word) : Byte := s.mem.read (memIndex addr)

/-- `MemWrite(addr, 1, b)` (00_scope.md R8, 20_memory.md R43). -/
def State.memWrite (s : State) (addr : Word) (b : Byte) : State := { s with mem := s.mem.write (memIndex addr) b }

/-- `sat15`: every assignment to SP saturates into 0..15 (10_state.md R23). -/
def sat15 (n : Int) : BitVec 4 := if n < 0 then 0 else if 15 < n then 15 else BitVec.ofInt 4 n

/-- `STACK[k]` (10_state.md R22). -/
def State.slot (s : State) (k : BitVec 4) : Word := s.stack[k.toNat]'k.isLt

/-- Push: the slot SP names before the increment takes the address (10_state.md R24, decision D7). -/
def State.push (s : State) (ret : Word) : State :=
  { s with stack := s.stack.set s.sp.toNat ret s.sp.isLt, sp := sat15 (s.sp.toNat + 1) }

/-- Pop: PC takes the slot SP names after the decrement (10_state.md R25, decision D8). -/
def State.popToPc (s : State) : State :=
  { s with sp := sat15 (s.sp.toNat - 1), pc := s.slot (sat15 (s.sp.toNat - 1)) }

/-- `KEYS[k]`, `isPressed(k)` (10_state.md R31, 60_exceptions.md R184). -/
def State.key (s : State) (k : KeyIdx) : Bool := s.keys[k.toNat]'k.isLt

/-- `KEYS[k] <- pressed` (60_exceptions.md R183). -/
def State.setKeyBit (s : State) (k : KeyIdx) (pressed : Bool) : State :=
  { s with keys := s.keys.set k.toNat pressed k.isLt }

/-- The fresh random byte of this execution: a free value (42_alu.md R131, decision D19, log entry 4). -/
def State.rnd (s : State) : Byte := Config.rnd s.draws

/-- After a draw the next execution gets a value of its own (42_alu.md R131). -/
def State.countDraw (s : State) : State := { s with draws := s.draws + 1 }

/-- An output leaves the core (00_scope.md R5). -/
def State.emit (s : State) (o : Output) : State := { s with outputs := o :: s.outputs }

/-- `Fetch16(pc)`: big-endian, two bytes at PC (20_memory.md R44, 40_instruction_cycle.md R82). -/
def State.fetch16 (s : State) : Word := wordOfBytes (s.memRead s.pc) (s.memRead (s.pc + 1))

end Sys2Proof.Machine
end

