-- ==== Sys2Proof/Machine/Flags.lean ====
section
/-! DEFINITION. Every flag computation of the spec (10_state.md R14) and the order of result and flag
(40_instruction_cycle.md R87). -/

namespace Sys2Proof.Machine

/-- A flag is 0x00 or 0x01 "and no other value" (10_state.md R14). -/
def flagByte (c : Bool) : Byte := if c then 1 else 0

/-- The carry of ADD Vx, Vy: the unsigned sum exceeds 255 (42_alu.md R126, decision D28). -/
def carryFlag (a b : Byte) : Bool := decide (255 < a.toNat + b.toNat)

/-- The flag of a subtraction: the minuend is strictly greater, so 0 on equality (42_alu.md R127, R129). -/
def greaterFlag (minuend subtrahend : Byte) : Bool := decide (subtrahend.toNat < minuend.toNat)

/-- The bit SHR shifts out, bit 0 before the shift (42_alu.md R128). -/
def shrFlag (a : Byte) : Bool := a.getLsbD 0

/-- The bit SHL shifts out, bit 7 before the shift (42_alu.md R130). -/
def shlFlag (a : Byte) : Bool := a.getLsbD 7

/-- The result first, the flag last, so that with `x = F` the register ends holding the flag
(40_instruction_cycle.md R87, decision D9). -/
def State.setRegAndFlag (s : State) (x : RegIdx) (result : Byte) (c : Bool) : State :=
  (s.setReg x result).setFlag (flagByte c)

end Sys2Proof.Machine
end

