-- ==== Sys2Proof/Machine/Alu.lean ====
section
/-! DEFINITION. Register loads and the 8-bit ALU (42_alu.md): arithmetic wraps modulo 256 (R132). -/

namespace Sys2Proof.Machine

/-- LD Vx, kk (42_alu.md R120). -/
def execLdImm (x : RegIdx) (kk : Byte) (s : State) : Host.Outcome State Fault Refusal :=
  .next (s.setReg x kk).advance

/-- ADD Vx, kk (42_alu.md R121): no flag (decision D31). -/
def execAddImm (x : RegIdx) (kk : Byte) (s : State) : Host.Outcome State Fault Refusal :=
  .next (s.setReg x (s.reg x + kk)).advance

/-- LD Vx, Vy (42_alu.md R122). -/
def execLdReg (x y : RegIdx) (s : State) : Host.Outcome State Fault Refusal :=
  .next (s.setReg x (s.reg y)).advance

/-- OR Vx, Vy (42_alu.md R123): VF untouched (decision D31). -/
def execOrReg (x y : RegIdx) (s : State) : Host.Outcome State Fault Refusal :=
  .next (s.setReg x (s.reg x ||| s.reg y)).advance

/-- AND Vx, Vy (42_alu.md R124): VF untouched (decision D31). -/
def execAndReg (x y : RegIdx) (s : State) : Host.Outcome State Fault Refusal :=
  .next (s.setReg x (s.reg x &&& s.reg y)).advance

/-- XOR Vx, Vy (42_alu.md R125): VF untouched (decision D31). -/
def execXorReg (x y : RegIdx) (s : State) : Host.Outcome State Fault Refusal :=
  .next (s.setReg x (s.reg x ^^^ s.reg y)).advance

/-- ADD Vx, Vy (42_alu.md R126). -/
def execAddReg (x y : RegIdx) (s : State) : Host.Outcome State Fault Refusal :=
  .next (s.setRegAndFlag x (s.reg x + s.reg y) (carryFlag (s.reg x) (s.reg y))).advance

/-- SUB Vx, Vy (42_alu.md R127). -/
def execSubReg (x y : RegIdx) (s : State) : Host.Outcome State Fault Refusal :=
  .next (s.setRegAndFlag x (s.reg x - s.reg y) (greaterFlag (s.reg x) (s.reg y))).advance

/-- SHR Vx (42_alu.md R128): Vx in place, Vy ignored (decision D10, PRESUMED by the spec's G7, log entry 13). -/
def execShr (x : RegIdx) (s : State) : Host.Outcome State Fault Refusal :=
  .next (s.setRegAndFlag x (s.reg x >>> 1) (shrFlag (s.reg x))).advance

/-- SUBN Vx, Vy (42_alu.md R129): Vy - Vx (decision D11, PRESUMED by the spec's G6, log entry 13). -/
def execSubnReg (x y : RegIdx) (s : State) : Host.Outcome State Fault Refusal :=
  .next (s.setRegAndFlag x (s.reg y - s.reg x) (greaterFlag (s.reg y) (s.reg x))).advance

/-- SHL Vx (42_alu.md R130): Vx in place, Vy ignored (decision D10, PRESUMED by the spec's G7, log entry 13). -/
def execShl (x : RegIdx) (s : State) : Host.Outcome State Fault Refusal :=
  .next (s.setRegAndFlag x (s.reg x <<< 1) (shlFlag (s.reg x))).advance

/-- RND Vx, kk (42_alu.md R131): a free byte under the mask (decision D19, log entry 4). -/
def execRnd (x : RegIdx) (kk : Byte) (s : State) : Host.Outcome State Fault Refusal :=
  .next (s.setReg x (s.rnd &&& kk)).countDraw.advance

end Sys2Proof.Machine
end

