-- ==== Sys2Proof/Machine/Compositor.lean ====
section
/-! DEFINITION. The display compositor: `clear`, `drawSprite` and the collision result (44_display.md R150 to R152). -/

namespace Sys2Proof.Machine

/-- A pixel's place, row then column (10_state.md R29). -/
abbrev Pixel := Fin 32 × Fin 64

/-- `D[y][x]` (10_state.md R29). -/
def Display.get (d : Display) (p : Pixel) : Bool := d[p.1][p.2]

/-- `D[y][x] <- D[y][x] ^ 1` (44_display.md R151). -/
def Display.invert (d : Display) (p : Pixel) : Display :=
  d.set p.1 ((d[p.1]).set p.2 (!(d.get p)))

/-- Where bit `7 - col` of row `row` of a sprite at `(x0, y0)` lands: "coordinates wrap, never clamp"
(44_display.md R151). -/
def spritePixel (x0 y0 : Byte) (row col : Nat) : Pixel :=
  (Fin.ofNat 32 (y0.toNat + row), Fin.ofNat 64 (x0.toNat + col))

/-- The pixels that the 1 bits of one sprite byte invert, "bit 7 of each byte as the leftmost column"
(44_display.md R151). -/
def rowPixels (x0 y0 : Byte) (row : Nat) (b : Byte) : List Pixel :=
  ((List.range 8).filter (fun col => b.getLsbD (7 - col))).map (spritePixel x0 y0 row)

/-- The pixels that a sprite's 1 bits invert, row by row from `row` on. -/
def spritePixelsFrom (x0 y0 : Byte) : Nat → List Byte → List Pixel
  | _, [] => []
  | row, b :: bs => rowPixels x0 y0 row b ++ spritePixelsFrom x0 y0 (row + 1) bs

/-- One 1 bit of a sprite: a collision if the pixel was on, and the pixel inverted (44_display.md R151). -/
def plot (acc : Display × Bool) (p : Pixel) : Display × Bool :=
  (acc.1.invert p, acc.2 || acc.1.get p)

/-- `drawSprite(x0, y0, bytes)`: the new display and whether a lit pixel was turned off (44_display.md R151, R152). -/
def drawSprite (d : Display) (x0 y0 : Byte) (bytes : List Byte) : Display × Bool :=
  (spritePixelsFrom x0 y0 0 bytes).foldl plot (d, false)

/-- `clear()`: every pixel false (44_display.md R150). -/
def State.clearDisplay (s : State) : State := { s with display := blankDisplay }

/-- The display a sprite draw leaves. -/
def State.setDisplay (s : State) (d : Display) : State := { s with display := d }

end Sys2Proof.Machine
end

