-- ==== Sys2Proof/Machine/Operands.lean ====
section
/-! DEFINITION. The operand forms: the one addressing mode of data, base I plus an offset (43_index_memory.md R146), and
the indices and digits some instructions take from a register. -/

namespace Sys2Proof.Machine

/-- The address `I + k`, formed modulo 65536 (20_memory.md R43, 43_index_memory.md R146). -/
def State.dataAddr (s : State) (k : Nat) : Word := s.i + BitVec.ofNat 16 k

/-- A 12-bit address field, zero-extended (30_encoding.md R63). -/
def absAddr (nnn : Addr12) : Word := nnn.setWidth 16

/-- The key a register names: its low four bits (45_keys_timers.md R166, decision D17). -/
def State.keyIndex (s : State) (x : RegIdx) : KeyIdx := (s.reg x).extractLsb' 0 4

/-- The address of the glyph a register names: `5 * min(V[x], 15)` (43_index_memory.md R142, decisions D15, D16). -/
def glyphAddr (b : Byte) : Word := BitVec.ofNat 16 (5 * min b.toNat 15)

/-- The hundreds digit, `a / 100` (43_index_memory.md R143). -/
def bcdHundreds (b : Byte) : Byte := BitVec.ofNat 8 (b.toNat / 100)
/-- The tens digit, `(a / 10) mod 10`. -/
def bcdTens (b : Byte) : Byte := BitVec.ofNat 8 (b.toNat / 10 % 10)
/-- The ones digit, `a mod 10`. -/
def bcdOnes (b : Byte) : Byte := BitVec.ofNat 8 (b.toNat % 10)

/-- The `n` bytes of a sprite, from I upward (44_display.md R155). -/
def State.spriteBytes (s : State) (n : Nibble) : List Byte :=
  (List.range n.toNat).map (fun r => s.memRead (s.dataAddr r))

/-- Stores `V[k]` at `I + k` for `k` below `n`, ascending (43_index_memory.md R144). -/
def State.storeRegs (s : State) (n : Nat) : State :=
  (List.range n).foldl (fun t k => t.memWrite (s.dataAddr k) (s.reg (BitVec.ofNat 4 k))) s

/-- Loads `V[k]` from `I + k` for `k` below `n`, ascending (43_index_memory.md R145). -/
def State.loadRegs (s : State) (n : Nat) : State :=
  (List.range n).foldl (fun t k => t.setReg (BitVec.ofNat 4 k) (s.memRead (s.dataAddr k))) s

/-- The number of registers `V0..Vx` (43_index_memory.md R144, R145: `x` is an inclusive bound). -/
def regCount (x : RegIdx) : Nat := x.toNat + 1

end Sys2Proof.Machine
end

