-- ==== Sys2Proof/Machine/DisplayInstr.lean ====
section
/-! DEFINITION. The display instructions (44_display.md). -/

namespace Sys2Proof.Machine

/-- CLS (44_display.md R154). -/
def execCls (s : State) : Host.Outcome State Fault Refusal := .next s.clearDisplay.advance

/-- What DRW draws: the sprite at I onto the display at (V[x], V[y]), all read before anything is written
(44_display.md R155, decision D22). -/
def State.drawn (s : State) (x y : RegIdx) (n : Nibble) : Display × Bool :=
  drawSprite s.display (s.reg x) (s.reg y) (s.spriteBytes n)

/-- DRW Vx, Vy, n (44_display.md R155). -/
def execDrw (x y : RegIdx) (n : Nibble) (s : State) : Host.Outcome State Fault Refusal :=
  .next ((s.setDisplay (s.drawn x y n).1).setFlag (flagByte (s.drawn x y n).2)).advance

end Sys2Proof.Machine
end

