-- ==== Sys2Proof/Machine/Flow.lean ====
section
/-! DEFINITION. Control transfer (41_flow.md). -/

namespace Sys2Proof.Machine

/-- RET (41_flow.md R100): no advance. -/
def execRet (s : State) : Host.Outcome State Fault Refusal := .next s.popToPc

/-- JP nnn (41_flow.md R101): no advance. -/
def execJp (nnn : Addr12) (s : State) : Host.Outcome State Fault Refusal := .next (s.setPc (absAddr nnn))

/-- CALL nnn (41_flow.md R102): pushes the address after the call; no advance. -/
def execCall (nnn : Addr12) (s : State) : Host.Outcome State Fault Refusal :=
  .next ((s.push (s.pc + 2)).setPc (absAddr nnn))

/-- SE Vx, kk (41_flow.md R103). -/
def execSeImm (x : RegIdx) (kk : Byte) (s : State) : Host.Outcome State Fault Refusal :=
  .next (s.skipIf (s.reg x == kk)).advance

/-- SNE Vx, kk (41_flow.md R104). -/
def execSneImm (x : RegIdx) (kk : Byte) (s : State) : Host.Outcome State Fault Refusal :=
  .next (s.skipIf (s.reg x != kk)).advance

/-- SE Vx, Vy (41_flow.md R105). -/
def execSeReg (x y : RegIdx) (s : State) : Host.Outcome State Fault Refusal :=
  .next (s.skipIf (s.reg x == s.reg y)).advance

/-- SNE Vx, Vy (41_flow.md R106). -/
def execSneReg (x y : RegIdx) (s : State) : Host.Outcome State Fault Refusal :=
  .next (s.skipIf (s.reg x != s.reg y)).advance

/-- JP V0, nnn (41_flow.md R107): not masked to 12 bits (decision D13); no advance. -/
def execJpV0 (nnn : Addr12) (s : State) : Host.Outcome State Fault Refusal :=
  .next (s.setPc (absAddr nnn + (s.reg 0).setWidth 16))

end Sys2Proof.Machine
end

