-- ==== Sys2Proof/Machine/IndexMemory.lean ====
section
/-! DEFINITION. The address register and the memory instructions (43_index_memory.md). -/

namespace Sys2Proof.Machine

/-- LD I, nnn (43_index_memory.md R140). -/
def execLdI (nnn : Addr12) (s : State) : Host.Outcome State Fault Refusal :=
  .next (s.setI (absAddr nnn)).advance

/-- ADD I, Vx (43_index_memory.md R141): 16 bits kept, no flag (decisions D13, D31). -/
def execAddI (x : RegIdx) (s : State) : Host.Outcome State Fault Refusal :=
  .next (s.setI (s.i + (s.reg x).setWidth 16)).advance

/-- LD F, Vx (43_index_memory.md R142). -/
def execLdF (x : RegIdx) (s : State) : Host.Outcome State Fault Refusal :=
  .next (s.setI (glyphAddr (s.reg x))).advance

/-- LD B, Vx (43_index_memory.md R143): the three digits at I, I+1, I+2; I unchanged. -/
def execLdB (x : RegIdx) (s : State) : Host.Outcome State Fault Refusal :=
  .next (((s.memWrite (s.dataAddr 0) (bcdHundreds (s.reg x))).memWrite (s.dataAddr 1) (bcdTens (s.reg x))).memWrite
    (s.dataAddr 2) (bcdOnes (s.reg x))).advance

/-- LD [I], Vx (43_index_memory.md R144): I unchanged (decision D21). -/
def execLdMemVx (x : RegIdx) (s : State) : Host.Outcome State Fault Refusal :=
  .next (s.storeRegs (regCount x)).advance

/-- LD Vx, [I] (43_index_memory.md R145): I unchanged (decision D21). -/
def execLdVxMem (x : RegIdx) (s : State) : Host.Outcome State Fault Refusal :=
  .next (s.loadRegs (regCount x)).advance

end Sys2Proof.Machine
end

