-- ==== Sys2Proof/Machine/KeysTimers.lean ====
section
/-! DEFINITION. The key and timer instructions (45_keys_timers.md). -/

namespace Sys2Proof.Machine

/-- SKP Vx (45_keys_timers.md R160). -/
def execSkp (x : RegIdx) (s : State) : Host.Outcome State Fault Refusal :=
  .next (s.skipIf (s.key (s.keyIndex x))).advance

/-- SKNP Vx (45_keys_timers.md R161). -/
def execSknp (x : RegIdx) (s : State) : Host.Outcome State Fault Refusal :=
  .next (s.skipIf (!(s.key (s.keyIndex x)))).advance

/-- LD Vx, DT (45_keys_timers.md R162). -/
def execLdVxDt (x : RegIdx) (s : State) : Host.Outcome State Fault Refusal :=
  .next (s.setReg x s.dt).advance

/-- LD Vx, K in the cycle that executes it (45_keys_timers.md R163): the wait begins, PC moves on; a later poll cycle
(Machine/Cycle.lean) stores the key. -/
def execLdVxK (x : RegIdx) (s : State) : Host.Outcome State Fault Refusal :=
  .next (State.advance { s with wait := true, waitReg := x })

/-- LD DT, Vx (45_keys_timers.md R164). -/
def execLdDtVx (x : RegIdx) (s : State) : Host.Outcome State Fault Refusal :=
  .next (State.advance { s with dt := s.reg x })

/-- LD ST, Vx (45_keys_timers.md R165). -/
def execLdStVx (x : RegIdx) (s : State) : Host.Outcome State Fault Refusal :=
  .next (State.advance { s with st := s.reg x })

end Sys2Proof.Machine
end

