-- ==== Sys2Proof/Machine/Cycle.lean ====
section
/-! DEFINITION. The instruction cycle, the event `InstrTick` (40_instruction_cycle.md R80 to R85). -/

namespace Sys2Proof.Machine

/-- The key-wait poll: `takeKeyPress()`, and if a press was recorded the key goes to `V[WAITREG]` and the wait ends; PC is
not changed (40_instruction_cycle.md R81, 60_exceptions.md R184). -/
def State.pollKey (s : State) : State :=
  match s.lastKey with
  | some k => State.setReg { s with lastKey := none, wait := false } s.waitReg (k.setWidth 8)
  | none => s

/-- An unrecognized word: reported, and PC moves on by 2 (40_instruction_cycle.md R85). -/
def State.passUnrecognized (s : State) (w : Word) : State := (s.emit (.unrecognized w s.pc)).advance

/-- Fetch, decode, then execute and advance or the two-byte no-op (40_instruction_cycle.md R80, R82, R83). -/
def instrCycle (s : State) : Host.Outcome State Fault Refusal :=
  match decodeWord s.fetch16 with
  | .instr i => exec i s
  | .unrecognized w => .next (s.passUnrecognized w)

/-- `InstrTick`: nothing while Stopped, a poll while in the key wait, else one instruction (40_instruction_cycle.md
R80). -/
def instrTick (s : State) : Host.Outcome State Fault Refusal :=
  if s.run then (if s.wait then .next s.pollKey else instrCycle s) else .next s

/-- A state whose next step is an `InstrTick` that fetches the word with bits `w` (numbered as opcode_table.json numbers
them): the word's bytes at PC, the core Running and in no key wait, and an `InstrTick` due before everything pending. -/
def State.placeFetchWord (s : State) (nbits w : Nat) : State :=
  let t := (s.memWrite s.pc (highByte (tableWord nbits w))).memWrite (s.pc + 1) (lowByte (tableWord nbits w))
  { t with run := true, wait := false, pending := .instrTick :: s.pending }

end Sys2Proof.Machine
end

