-- ==== Sys2Proof/Machine/Events.lean ====
section
/-! DEFINITION. The events other than `InstrTick` (60_exceptions.md, 70_reset_and_hazards.md) and which event comes
next. -/

namespace Sys2Proof.Machine

/-- One timer counts down, with a floor at zero (60_exceptions.md R181). -/
def countDown (t : Byte) : Byte := if t = 0 then 0 else t - 1

/-- `TimerTick` (60_exceptions.md R181): nothing while Stopped; also during a key wait (decision D24). -/
def State.timerTick (s : State) : State :=
  if s.run then { s with dt := countDown s.dt, st := countDown s.st } else s

/-- `SetKey(k, pressed)` (60_exceptions.md R183): a press transition is recorded as the most recent press. -/
def State.deliverKey (s : State) (k : KeyIdx) (pressed : Bool) : State :=
  let t := s.setKeyBit k pressed
  if pressed && !(s.key k) then { t with lastKey := some k } else t

/-- Whether `Load` accepts these bytes: Stopped, 1 to 3584 bytes (60_exceptions.md R185, decisions D4, D23). -/
def State.acceptsLoad (s : State) (bytes : List Byte) : Bool :=
  !s.run && decide (0 < bytes.length) && decide (bytes.length ≤ Config.maxProgram)

/-- `Load(bytes)` (60_exceptions.md R185): the result is an output. -/
def State.loadProgram (s : State) (bytes : List Byte) : State :=
  if s.acceptsLoad bytes then State.emit { s with mem := s.mem.replaceProgram bytes } (.loadResult true)
  else s.emit (.loadResult false)

/-- `Start` (60_exceptions.md R179). -/
def State.start (s : State) : State := { s with run := true }

/-- `Stop` (60_exceptions.md R180). -/
def State.stop (s : State) : State := { s with run := false }

/-- What an accepted `Reset` writes (70_reset_and_hazards.md R200): every register, the display and the input latch take
their reset values, the font is written again, from this machine's glyphs; RUN and MEM[0x050..0xFFF] are not written (R203). -/
def State.reinitialise (s : State) : State :=
  { s with
    v := State.reset.v, pc := State.reset.pc, i := State.reset.i, stack := State.reset.stack, sp := State.reset.sp,
    dt := State.reset.dt, st := State.reset.st, mem := s.mem.writeBytes 0 (font s.glyphs), display := State.reset.display,
    keys := State.reset.keys, lastKey := State.reset.lastKey, wait := State.reset.wait,
    waitReg := State.reset.waitReg }

/-- Power-on of a machine with the glyphs `g` and the memory content `init`, the arguments of 00_scope.md R7
(70_reset_and_hazards.md R201). -/
def State.powerOn (g : Config.Glyphs) (init : Config.MemInit) : State :=
  { State.reset with glyphs := g, mem := Memory.writeBytes [] 0 (font g ++ init.toList) }

/-- `Reset`, "only valid from `Stopped`", ignored while Running (70_reset_and_hazards.md R202, decision D4). -/
def State.requestReset (s : State) : State := if s.run then s else s.reinitialise

/-- `Snapshot` (60_exceptions.md R186): a copy of the display leaves the core. -/
def State.takeSnapshot (s : State) : State := s.emit (.snapshot s.display)

/-- One event, performed wholly (00_scope.md R3). -/
def deliver (e : Event) (s : State) : Host.Outcome State Fault Refusal :=
  match e with
  | .instrTick => instrTick s
  | .timerTick => .next s.timerTick
  | .setKey k pressed => .next (s.deliverKey k pressed)
  | .load bytes => .next (s.loadProgram bytes)
  | .start => .next s.start
  | .stop => .next s.stop
  | .reset => .next s.requestReset
  | .snapshot => .next s.takeSnapshot

/-- The event that comes next: the oldest pending one; with none pending the instruction-cycle driver ticks (DESIGN
CHOICE, log entry 1). -/
def State.nextEvent (s : State) : Event := s.pending.headD .instrTick

/-- The state once the next event has left the queue. -/
def State.dequeue (s : State) : State := { s with pending := s.pending.tail }

end Sys2Proof.Machine
end

