-- ==== Sys2Proof/Machine/Step.lean ====
section
/-! DEFINITION. One step of the machine: the next event, performed (00_scope.md R3). -/

namespace Sys2Proof.Machine

/-- One step: the next event leaves the queue and is performed. -/
def step (s : State) : Host.Outcome State Fault Refusal := deliver s.nextEvent s.dequeue

/-- `s` with the instruction of bits `w` stored where the next step fetches it, and that fetch due (log entry 2). -/
def State.withFetchWord (s : State) (nbits w : Nat) : State := s.placeFetchWord nbits w

end Sys2Proof.Machine
end

