-- ==== Sys2Proof/Safety.lean ====
section
/-! DEFINITION. The terms that claims use: the parts of the state, what it means that only some of them change, which
parts each instruction and each event may change (00_scope.md R5's table, R9; 40_instruction_cycle.md R86), how a word of
the decode table is characterised, and the invariant of memory. -/

namespace Sys2Proof.Machine

/-- The parts of the state, each register, stack slot, byte of memory and key on its own. -/
inductive Part where
  | reg (r : RegIdx)
  | pc
  | i
  | slot (k : BitVec 4)
  | sp
  | dt
  | st
  | byte (a : Nat)
  | display
  | key (k : KeyIdx)
  | lastKey
  | run
  | wait
  | waitReg
  | draws
  | pending
  | outputs
  | glyphs
deriving DecidableEq, Repr

/-- Two states agree on a part. A byte of memory is compared through the model's read of it. -/
def SamePart (s t : State) : Part → Prop
  | .reg r => t.reg r = s.reg r
  | .pc => t.pc = s.pc
  | .i => t.i = s.i
  | .slot k => t.slot k = s.slot k
  | .sp => t.sp = s.sp
  | .dt => t.dt = s.dt
  | .st => t.st = s.st
  | .byte a => t.mem.read a = s.mem.read a
  | .display => t.display = s.display
  | .key k => t.key k = s.key k
  | .lastKey => t.lastKey = s.lastKey
  | .run => t.run = s.run
  | .wait => t.wait = s.wait
  | .waitReg => t.waitReg = s.waitReg
  | .draws => t.draws = s.draws
  | .pending => t.pending = s.pending
  | .outputs => t.outputs = s.outputs
  | .glyphs => t.glyphs = s.glyphs

/-- The frame: from `s` to `t` every part outside `ws` is unchanged (00_scope.md R9). -/
def ChangesOnly (s t : State) (ws : List Part) : Prop := ∀ p, p ∉ ws → SamePart s t p

/-- The bytes of memory at `I + k` for `k` below `n`: what a store of `n` bytes at I writes (20_memory.md R43). -/
def storedBytes (s : State) (n : Nat) : List Part :=
  (List.range n).map (fun k => Part.byte (memIndex (s.dataAddr k)))

/-- The registers `V[k]` for `k` below `n` (43_index_memory.md R145). -/
def lowRegs (n : Nat) : List Part := (List.range n).map (fun k => Part.reg (BitVec.ofNat 4 k))

/-- The parts each instruction's rule names as written: "an instruction changes only the state its rule names"
(40_instruction_cycle.md R86, 00_scope.md R9). The random-byte counter of RND is the model's own. -/
def writes (s : State) : Instr → List Part
  | .cls _ => [.display, .pc]
  | .ret _ => [.sp, .pc]
  | .jp _ => [.pc]
  | .call _ => [.slot s.sp, .sp, .pc]
  | .seImm _ _ => [.pc]
  | .sneImm _ _ => [.pc]
  | .seReg _ _ _ => [.pc]
  | .ldImm x _ => [.reg x, .pc]
  | .addImm x _ => [.reg x, .pc]
  | .ldReg x _ => [.reg x, .pc]
  | .orReg x _ => [.reg x, .pc]
  | .andReg x _ => [.reg x, .pc]
  | .xorReg x _ => [.reg x, .pc]
  | .addReg x _ => [.reg x, .reg flagReg, .pc]
  | .subReg x _ => [.reg x, .reg flagReg, .pc]
  | .shr x _ => [.reg x, .reg flagReg, .pc]
  | .subnReg x _ => [.reg x, .reg flagReg, .pc]
  | .shl x _ => [.reg x, .reg flagReg, .pc]
  | .sneReg _ _ _ => [.pc]
  | .ldI _ => [.i, .pc]
  | .jpV0 _ => [.pc]
  | .rnd x _ => [.reg x, .draws, .pc]
  | .drw _ _ _ => [.display, .reg flagReg, .pc]
  | .skp _ => [.pc]
  | .sknp _ => [.pc]
  | .ldVxDt x => [.reg x, .pc]
  | .ldVxK _ => [.wait, .waitReg, .pc]
  | .ldDtVx _ => [.dt, .pc]
  | .ldStVx _ => [.st, .pc]
  | .addI _ => [.i, .pc]
  | .ldF _ => [.i, .pc]
  | .ldB _ => .pc :: storedBytes s 3
  | .ldMemVx x => .pc :: storedBytes s (regCount x)
  | .ldVxMem x => .pc :: lowRegs (regCount x)

/-- The parts each event may change, by the table of agents of 00_scope.md (after R5) and 10_state.md R31, R33; the queue
of pending events and the outputs are the model's own; the parameter FONT is changed by none (00_scope.md R7). -/
def mayChange : Event → Part → Bool
  | _, .pending => true
  | _, .glyphs => false
  | .instrTick, .run => false
  | .instrTick, .key _ => false
  | .instrTick, _ => true
  | .timerTick, p => p == .dt || p == .st
  | .setKey k _, p => p == .key k || p == .lastKey
  | .load _, .byte a => decide (Config.programBase ≤ a) && decide (a < Config.memSize)
  | .load _, p => p == .outputs
  | .start, p => p == .run
  | .stop, p => p == .run
  | .reset, .run => false
  | .reset, .byte a => decide (a < 0x50)
  | .reset, p => p != .draws && p != .outputs
  | .snapshot, p => p == .outputs

/-- The invariant of every reachable state: memory is in its canonical form. -/
abbrev MemoryCanonical (s : State) : Prop := s.mem.wf = true

/-- The font of glyphs `g` stands in memory from 0x000: glyph 0 as the source fixes it, glyph `d + 1` at
`5 * (d + 1)`, one byte per row (20_memory.md R42, decision D15). -/
def FontLoaded (g : Config.Glyphs) (m : Memory) : Prop :=
  [0, 1, 2, 3, 4].map m.read = [0xF0, 0x90, 0x90, 0x90, 0xF0] ∧
    ∀ (d : Fin 15) (r : Fin 5), m.read (5 * (d.val + 1) + r.val) = g[d][r]

/-- Two states that differ at most in the sound timer (10_state.md R38: no instruction observes it). -/
def SameButSt (s t : State) : Prop := t = { s with st := t.st }

/-- Two states outside a key wait that differ at most in WAITREG (10_state.md R35: "Its value is meaningful only while
WAIT = 1"). -/
def SameButIdleWaitReg (s t : State) : Prop :=
  t = s ∨ (s.wait = false ∧ t = { s with waitReg := t.waitReg })

/-- A 1 bit of the sprite `b 0, ..., b (len - 1)` at `(x0, y0)` lands on the pixel `p`: bit `7 - col` of byte `row` at
column `(x0 + col) mod 64` of row `(y0 + row) mod 32` (44_display.md R151). -/
def SpriteHits (x0 y0 : Byte) (b : Nat → Byte) (len : Nat) (p : Pixel) : Prop :=
  ∃ row col, row < len ∧ col < 8 ∧ (b row).getLsbD (7 - col) = true ∧
    p.1.val = (y0.toNat + row) % 32 ∧ p.2.val = (x0.toNat + col) % 64

/-- `d'` is `d` with the sprite's 1 bits inverted and every other pixel as it was (44_display.md R151). -/
def SpriteDrawn (d d' : Display) (x0 y0 : Byte) (b : Nat → Byte) (len : Nat) : Prop :=
  ∀ p, (SpriteHits x0 y0 b len p → d'.get p = !(d.get p)) ∧ (¬ SpriteHits x0 y0 b len p → d'.get p = d.get p)

/-- Some 1 bit of the sprite meets a lit pixel (44_display.md R152). -/
def SpriteCollides (d : Display) (x0 y0 : Byte) (b : Nat → Byte) (len : Nat) : Prop :=
  ∃ p, SpriteHits x0 y0 b len p ∧ d.get p = true

/-- Instructions executed one after the other, each from the state the one before it left; stops where one does. -/
def execAll : List Instr → State → Host.Outcome State Fault Refusal
  | [], s => .next s
  | i :: is, s =>
    match exec i s with
    | .next t => execAll is t
    | .fault r => .fault r
    | .refused r => .refused r

/-- The instructions that set PC themselves: "the mnemonics ... jump, call, or return" (40_instruction_cycle.md R84). -/
def setsOwnPc : Instr → Bool
  | .ret _ | .jp _ | .call _ | .jpV0 _ => true
  | .cls _ | .seImm _ _ | .sneImm _ _ | .seReg _ _ _ | .ldImm _ _ | .addImm _ _ | .ldReg _ _ | .orReg _ _
    | .andReg _ _ | .xorReg _ _ | .addReg _ _ | .subReg _ _ | .shr _ _ | .subnReg _ _ | .shl _ _
    | .sneReg _ _ _ | .ldI _ | .rnd _ _ | .drw _ _ _ | .skp _ | .sknp _ | .ldVxDt _ | .ldVxK _ | .ldDtVx _
    | .ldStVx _ | .addI _ | .ldF _ | .ldB _ | .ldMemVx _ | .ldVxMem _ => false

/-- Whether an instruction is a skip whose condition holds: SE, SNE, SKP, SKNP (40_instruction_cycle.md R88, 41_flow.md
R103 to R106, 45_keys_timers.md R160, R161; the key by decision D17, log entry 15). -/
def skipTaken (s : State) : Instr → Prop
  | .seImm x kk => s.reg x = kk
  | .sneImm x kk => s.reg x ≠ kk
  | .seReg x y _ => s.reg x = s.reg y
  | .sneReg x y _ => s.reg x ≠ s.reg y
  | .skp x => s.key (BitVec.ofNat 4 ((s.reg x).toNat % 16)) = true
  | .sknp x => s.key (BitVec.ofNat 4 ((s.reg x).toNat % 16)) = false
  | .cls _ | .ret _ | .jp _ | .call _ | .ldImm _ _ | .addImm _ _ | .ldReg _ _ | .orReg _ _ | .andReg _ _
    | .xorReg _ _ | .addReg _ _ | .subReg _ _ | .shr _ _ | .subnReg _ _ | .shl _ _ | .ldI _ | .jpV0 _
    | .rnd _ _ | .drw _ _ _ | .ldVxDt _ | .ldVxK _ | .ldDtVx _ | .ldStVx _ | .addI _ | .ldF _ | .ldB _
    | .ldMemVx _ | .ldVxMem _ => False

/-- The six instructions that write VF as a flag (10_state.md R14). -/
def writesFlag : Instr → Bool
  | .addReg _ _ | .subReg _ _ | .subnReg _ _ | .shr _ _ | .shl _ _ | .drw _ _ _ => true
  | .cls _ | .ret _ | .jp _ | .call _ | .seImm _ _ | .sneImm _ _ | .seReg _ _ _ | .ldImm _ _ | .addImm _ _
    | .ldReg _ _ | .orReg _ _ | .andReg _ _ | .xorReg _ _ | .sneReg _ _ _ | .ldI _ | .jpV0 _ | .rnd _ _
    | .skp _ | .sknp _ | .ldVxDt _ | .ldVxK _ | .ldDtVx _ | .ldStVx _ | .addI _ | .ldF _ | .ldB _ | .ldMemVx _
    | .ldVxMem _ => false

/-- The general registers an instruction names as its destination (42_alu.md, 43_index_memory.md R145,
45_keys_timers.md R162). -/
def namesDestination (r : RegIdx) : Instr → Bool
  | .ldImm x _ => r == x
  | .addImm x _ => r == x
  | .ldReg x _ => r == x
  | .orReg x _ => r == x
  | .andReg x _ => r == x
  | .xorReg x _ => r == x
  | .addReg x _ => r == x
  | .subReg x _ => r == x
  | .shr x _ => r == x
  | .subnReg x _ => r == x
  | .shl x _ => r == x
  | .rnd x _ => r == x
  | .ldVxDt x => r == x
  | .ldVxMem x => decide (r.toNat ≤ x.toNat)
  | .cls _ | .ret _ | .jp _ | .call _ | .seImm _ _ | .sneImm _ _ | .seReg _ _ _ | .sneReg _ _ _ | .ldI _
    | .jpV0 _ | .drw _ _ _ | .skp _ | .sknp _ | .ldVxK _ | .ldDtVx _ | .ldStVx _ | .addI _ | .ldF _ | .ldB _
    | .ldMemVx _ => false

end Sys2Proof.Machine

namespace Sys2Proof

/-- Exactly these words decode to `i`: those that select the row with this mask and match and hold `i`'s operands in
their fields (30_encoding.md R64). -/
def DecodesFrom (i : Instr) (mask pat : Word) (fields : Word → Prop) : Prop :=
  ∀ w, decodeWord w = .instr i ↔ (w &&& mask = pat ∧ fields w)

end Sys2Proof
end

