-- ==== Sys2Proof/Certificates/Slice0/Obligations.lean ====
section
/-! DEFINITION. The statements for the provers. A docstring says which sentence of the spec a statement formalises, and
names the spec's decision (D<n>, G<n>) and the log entry where the statement rests on one. Every statement about an
instruction says that it completes (`exec` answers a next state) in every state, with what result, and that nothing else
changes. -/

open Sys2Proof Sys2Proof.Machine

/-! Encoding (30_encoding.md). -/

/-- Words written out bit by bit from the patterns of 30_encoding.md R64, at least one of each of the 16 families (bits
15:12, 00_scope.md section 7), decode to the instructions
they stand for (families 8 and F by the selectors of G1, G2, log entry 8; ignored bits by D14, log entry 9). -/
def Obligations.WordsOfEveryFamilyDecode : Prop :=
  decodeWord 0b0000000011100000 = .instr (.cls 0) ∧
  decodeWord 0b0000101011101110 = .instr (.ret 0b1010) ∧
  decodeWord 0b0001101010111100 = .instr (.jp 0b101010111100) ∧
  decodeWord 0b0010111100000000 = .instr (.call 0b111100000000) ∧
  decodeWord 0b0011101001111111 = .instr (.seImm 0b1010 0b01111111) ∧
  decodeWord 0b0100101100000000 = .instr (.sneImm 0b1011 0b00000000) ∧
  decodeWord 0b0101000100101111 = .instr (.seReg 0b0001 0b0010 0b1111) ∧
  decodeWord 0b0110110000110011 = .instr (.ldImm 0b1100 0b00110011) ∧
  decodeWord 0b0111110111111111 = .instr (.addImm 0b1101 0b11111111) ∧
  decodeWord 0b1000000100100101 = .instr (.subReg 0b0001 0b0010) ∧
  decodeWord 0b1000000100101110 = .instr (.shl 0b0001 0b0010) ∧
  decodeWord 0b1001101010110111 = .instr (.sneReg 0b1010 0b1011 0b0111) ∧
  decodeWord 0b1010000100100011 = .instr (.ldI 0b000100100011) ∧
  decodeWord 0b1011001100000000 = .instr (.jpV0 0b001100000000) ∧
  decodeWord 0b1100001100001111 = .instr (.rnd 0b0011 0b00001111) ∧
  decodeWord 0b1101000100100101 = .instr (.drw 0b0001 0b0010 0b0101) ∧
  decodeWord 0b1110001010100001 = .instr (.sknp 0b0010) ∧
  decodeWord 0b1111000100001010 = .instr (.ldVxK 0b0001) ∧
  decodeWord 0b1111000101010101 = .instr (.ldMemVx 0b0001) ∧
  decodeWord 0b1000000100101000 = .unrecognized 0b1000000100101000

/-- Decode and encode agree: for EVERY instruction, canonical or not, with every value of every operand, decoding its word
gives it back, and so does decoding its two bytes in a run of bytes. -/
def Obligations.DecodeOfEncodeIsTheInstruction : Prop :=
  ∀ i, decodeWord (encode i) = .instr i ∧ ∀ rest, decodeBytes (encodeBytes i ++ rest) = .instr i rest

/-- The other direction: a word that decodes to an instruction is that instruction's encoding, so no bit of a word is lost.
That no two words decode to the same `Instr` is the model's choice (log entry 9): it keeps the bits that the decoder ignores
as operands, where 30_encoding.md R69 and R71 give one descriptor, for example one CLS for 0x00E0 and 0x0AE0. -/
def Obligations.EncodeOfDecodeIsTheWord : Prop :=
  ∀ w i, decodeWord w = .instr i → encode i = w

/-- 30_encoding.md R70: exactly which words are unrecognized, family by family (families 8 and F by the selectors of G1,
G2, log entry 8). -/
def Obligations.UnrecognizedWordsAreExactlyThese : Prop :=
  ∀ w : Word, decodeWord w = .unrecognized w ↔
    ((w.extractLsb' 12 4 = 0x0 ∧ w.extractLsb' 0 8 ∉ ([0xE0, 0xEE] : List Byte)) ∨
     (w.extractLsb' 12 4 = 0x8 ∧ w.extractLsb' 0 4 ∈ ([0x8, 0x9, 0xA, 0xB, 0xC, 0xD, 0xF] : List Nibble)) ∨
     (w.extractLsb' 12 4 = 0xE ∧ w.extractLsb' 0 8 ∉ ([0x9E, 0xA1] : List Byte)) ∨
     (w.extractLsb' 12 4 = 0xF ∧ w.extractLsb' 0 8 ∉
       ([0x07, 0x0A, 0x15, 0x18, 0x1E, 0x29, 0x33, 0x55, 0x65] : List Byte)))

/-- 30_encoding.md R67: family E is dispatched on its low byte; SKP and SKNP on 0x9E and 0xA1, any other unrecognized. -/
def Obligations.FamilyEIsDispatchedOnItsLowByte : Prop :=
  ∀ w : Word, w.extractLsb' 12 4 = 0xE →
    decodeWord w =
      if w.extractLsb' 0 8 = 0x9E then .instr (.skp (w.extractLsb' 8 4))
      else if w.extractLsb' 0 8 = 0xA1 then .instr (.sknp (w.extractLsb' 8 4))
      else .unrecognized w

/-! Power-on and Reset (10_state.md, 70_reset_and_hazards.md). -/

/-- The state at power-on, 70_reset_and_hazards.md R201 with the table under R200, for every choice of the open parameters
FONT[1..15] and MEM_INIT of 00_scope.md R7 (log entry 21): 0x000..0x04F holds the font of these glyphs and 0x050..0xFFF
MEM_INIT. The values of I, the stack slots, DT, ST, the display, KEYS, LASTKEY, WAIT and WAITREG are the spec's decision D5
and RUN its decision D3 (log entries 7, 17), the order of the glyphs its decision D15 (log entry 6). `State.reset` is the
machine of the spec's defaults (log entries 5, 6). The draws, the queue and the outputs are the model's own (log entries 4,
1, 3). -/
def Obligations.PowerOnState : Prop :=
  (∀ (g : Config.Glyphs) (init : Config.MemInit), ∃ s, s = State.powerOn g init ∧
    (∀ r, s.reg r = 0) ∧ s.pc = 0x0200 ∧ s.i = 0 ∧ (∀ k, s.slot k = 0) ∧ s.sp = 0 ∧ s.dt = 0 ∧ s.st = 0 ∧
    (∀ p, s.display.get p = false) ∧ (∀ k, s.key k = false) ∧ s.lastKey = none ∧ s.run = false ∧ s.wait = false ∧
    s.waitReg = 0 ∧ FontLoaded g s.mem ∧ (∀ k : Fin 4016, s.mem.read (0x50 + k.val) = init[k]) ∧
    s.draws = 0 ∧ s.pending = [] ∧ s.outputs = [] ∧ s.glyphs = g) ∧
  State.powerOn defaultGlyphs defaultMemInit = State.reset

/-- 10_state.md R13: after `Reset` every general register is 0x00 and PC is 0x200. -/
def Obligations.ResetClearsEveryRegister : Prop :=
  ∀ s rest, s.pending = .reset :: rest → s.run = false →
    ∃ t, step s = .next t ∧ (∀ r, t.reg r = 0x00) ∧ t.pc = 0x0200

/-- 70_reset_and_hazards.md R200, R203: what an accepted Reset leaves. I, DT, ST, the slots, the display, the input latch,
WAIT and WAITREG by the spec's decision D5 (log entry 7); memory outside the font kept by its decision D6 (log entry 17); the
font is that of this machine's glyphs, in ascending order by its decision D15 (log entries 6, 21). The draws, the queue and
the outputs are the model's own (log entries 4, 1, 3). -/
def Obligations.ResetReinitialisesEverythingButProgramMemory : Prop :=
  ∀ s rest, s.pending = .reset :: rest → s.run = false →
    ∃ t, step s = .next t ∧ (∀ r, t.reg r = 0) ∧ t.pc = 0x0200 ∧ t.i = 0 ∧ t.sp = 0 ∧ (∀ k, t.slot k = 0) ∧
      t.dt = 0 ∧ t.st = 0 ∧ (∀ p, t.display.get p = false) ∧ (∀ k, t.key k = false) ∧ t.lastKey = none ∧
      t.wait = false ∧ t.waitReg = 0 ∧ t.run = false ∧
      FontLoaded s.glyphs t.mem ∧ (∀ a, 0x50 ≤ a → t.mem.read a = s.mem.read a) ∧
      t.draws = s.draws ∧ t.pending = rest ∧ t.outputs = s.outputs ∧ t.glyphs = s.glyphs

/-- 70_reset_and_hazards.md R202: a Reset requested while Running changes nothing (the spec's decision D4, log
entry 17). -/
def Obligations.ResetIsIgnoredWhileRunning : Prop :=
  ∀ s rest, s.pending = .reset :: rest → s.run = true → step s = .next { s with pending := rest }

/-! The other events (60_exceptions.md). -/

/-- 60_exceptions.md R179, R180, R186: Start and Stop change RUN only, whatever it was (the spec's decision D3, log entry
17); Snapshot changes nothing and puts out a copy of the display (D25, log entry 3). The event leaves
the queue and every other stays (log entry 1). -/
def Obligations.StartStopAndSnapshot : Prop :=
  (∀ s rest, s.pending = .start :: rest →
    ∃ t, step s = .next t ∧ t.run = true ∧ t.pending = rest ∧ ChangesOnly s t [.run, .pending]) ∧
  (∀ s rest, s.pending = .stop :: rest →
    ∃ t, step s = .next t ∧ t.run = false ∧ t.pending = rest ∧ ChangesOnly s t [.run, .pending]) ∧
  (∀ s rest, s.pending = .snapshot :: rest →
    ∃ t, step s = .next t ∧ t.outputs = .snapshot s.display :: s.outputs ∧ t.pending = rest ∧
      ChangesOnly s t [.outputs, .pending])

/-- 60_exceptions.md R181: while Running each timer counts down by one and stops at zero, in a key wait too; while Stopped
nothing changes (the spec's decision D24, log entry 17). -/
def Obligations.TimerTickCountsDownToZero : Prop :=
  ∀ s rest, s.pending = .timerTick :: rest →
    ∃ t, step s = .next t ∧ t.pending = rest ∧ ChangesOnly s t [.dt, .st, .pending] ∧
      (s.run = true → t.dt.toNat = s.dt.toNat - 1 ∧ t.st.toNat = s.st.toNat - 1) ∧
      (s.run = false → t.dt = s.dt ∧ t.st = s.st)

/-- 60_exceptions.md R183: SetKey latches the key; only a released-to-pressed transition is recorded as the most recent
press (the spec's decision D18, log entry 16). -/
def Obligations.SetKeyLatchesAndRecordsPresses : Prop :=
  ∀ s k pressed rest, s.pending = .setKey k pressed :: rest →
    ∃ t, step s = .next t ∧ t.key k = pressed ∧
      t.lastKey = (if pressed = true ∧ s.key k = false then some k else s.lastKey) ∧
      t.pending = rest ∧ ChangesOnly s t [.key k, .lastKey, .pending]

/-- 60_exceptions.md R185: Load succeeds exactly while Stopped with 1 to 3584 bytes (the spec's decisions D4, D23, log entry
17); then 0x200..0xFFF holds the bytes and zeroes after them and nothing else changes; else nothing but the reported
failure. -/
def Obligations.LoadFillsTheProgramRegionOrFails : Prop :=
  ∀ s bytes rest, s.pending = .load bytes :: rest →
    ∃ t, step s = .next t ∧ t.pending = rest ∧
      (s.run = false ∧ 0 < bytes.length ∧ bytes.length ≤ 3584 →
        t.outputs = .loadResult true :: s.outputs ∧
        (∀ a, 0x200 ≤ a → a < 4096 → t.mem.read a = bytes.getD (a - 0x200) 0) ∧
        (∀ a, a < 0x200 → t.mem.read a = s.mem.read a) ∧
        ∀ p, (∀ a, p ≠ .byte a) → p ∉ [Part.outputs, .pending] → SamePart s t p) ∧
      (¬ (s.run = false ∧ 0 < bytes.length ∧ bytes.length ≤ 3584) →
        t.outputs = .loadResult false :: s.outputs ∧ ChangesOnly s t [.outputs, .pending])

/-! The instruction cycle (40_instruction_cycle.md). -/

/-- 40_instruction_cycle.md R80: while Stopped InstrTick changes nothing; in a key wait it polls and nothing else; otherwise
it fetches, decodes, and executes or passes the unrecognized word. -/
def Obligations.InstrTickIsOneInstructionCycle : Prop :=
  ∀ s, s.nextEvent = .instrTick →
    (s.run = false → step s = .next s.dequeue) ∧
    (s.run = true → s.wait = true → step s = .next s.dequeue.pollKey) ∧
    (s.run = true → s.wait = false → step s =
      match decodeWord s.fetch16 with
      | .instr i => exec i s.dequeue
      | .unrecognized w => .next (s.dequeue.passUnrecognized w))

/-- A step runs the decoded instruction: when the byte at PC (high) and the one after it (low), addresses modulo 4096, make a
word that decodes to `i`, the step is `exec i` on the state with the tick taken off the queue; nothing else is done around it
(R44, R82, R83; the modulo by the spec's decision D12, log entry 10; the queue by log entry 1). -/
def Obligations.StepRunsTheDecodedInstruction : Prop :=
  ∀ (s : State) (w : Word) (i : Instr), s.nextEvent = .instrTick → s.run = true → s.wait = false →
    w.toNat = (s.mem.read (s.pc.toNat % 4096)).toNat * 256 + (s.mem.read ((s.pc.toNat + 1) % 4096)).toNat →
    decodeWord w = .instr i → step s = exec i s.dequeue

/-- 40_instruction_cycle.md R85: an unrecognized word is reported with its address and PC moves on by 2; nothing else changes
(the form of the report by the spec's decision D20, log entry 3). -/
def Obligations.UnrecognizedWordIsATwoByteNoOp : Prop :=
  ∀ s w, s.nextEvent = .instrTick → s.run = true → s.wait = false → decodeWord s.fetch16 = .unrecognized w →
    ∃ t, step s = .next t ∧ w = s.fetch16 ∧ t.pc = s.pc + 2 ∧ t.outputs = .unrecognized w s.pc :: s.outputs ∧
      t.pending = s.pending.tail ∧ ChangesOnly s t [.pc, .outputs, .pending]

/-- 40_instruction_cycle.md R81: the poll. With a press recorded the key goes to V[WAITREG], the record is cleared, the wait
ends and PC stays; with none nothing changes (the spec's decision D18, log entry 16). -/
def Obligations.PollStoresTheKeyAndEndsTheWait : Prop :=
  ∀ s, s.nextEvent = .instrTick → s.run = true → s.wait = true →
    (s.lastKey = none → step s = .next s.dequeue) ∧
    (∀ k, s.lastKey = some k → ∃ t, step s = .next t ∧ (t.reg s.waitReg).toNat = k.toNat ∧ t.lastKey = none ∧
      t.wait = false ∧ t.pending = s.pending.tail ∧ ChangesOnly s t [.reg s.waitReg, .lastKey, .wait, .pending])

/-- 40_instruction_cycle.md R90: no instruction fails to complete; every word, at every PC and in every state, has a next
state. -/
def Obligations.EveryStepHasANextState : Prop :=
  (∀ i s, ∃ t, exec i s = .next t) ∧ ∀ s, ∃ t, step s = .next t

/-! Control transfer (41_flow.md). -/

/-- 41_flow.md R101. -/
def Obligations.JpSetsPc : Prop :=
  ∀ nnn : Addr12, DecodesFrom (.jp nnn) 0xF000 0x1000 (fun w => w.extractLsb' 0 12 = nnn) ∧
    ∀ s, ∃ t, exec (.jp nnn) s = .next t ∧ t.pc.toNat = nnn.toNat ∧ ChangesOnly s t [.pc]

/-- 41_flow.md R102: CALL stores the address after it in the slot SP names, SP counts up and stays at 15, PC becomes nnn
(slot and order by the spec's decision D7, log entry 11). -/
def Obligations.CallPushesTheReturnAddress : Prop :=
  ∀ nnn : Addr12, DecodesFrom (.call nnn) 0xF000 0x2000 (fun w => w.extractLsb' 0 12 = nnn) ∧
    ∀ s, ∃ t, exec (.call nnn) s = .next t ∧ t.slot s.sp = s.pc + 2 ∧ t.sp.toNat = min (s.sp.toNat + 1) 15 ∧
      t.pc.toNat = nnn.toNat ∧ ChangesOnly s t [.slot s.sp, .sp, .pc]

/-- 41_flow.md R100: SP counts down and stays at 0, PC becomes the slot the new SP names, every slot keeps its value (the
spec's decision D8, log entry 11; bits 11:8 ignored by D14, log entry 9). -/
def Obligations.RetPopsIntoPc : Prop :=
  ∀ ign : Nibble, DecodesFrom (.ret ign) 0xF0FF 0x00EE (fun w => w.extractLsb' 8 4 = ign) ∧
    ∀ s, ∃ t, exec (.ret ign) s = .next t ∧ t.sp.toNat = s.sp.toNat - 1 ∧ t.pc = s.slot t.sp ∧
      ChangesOnly s t [.sp, .pc]

/-- 41_flow.md R103, R104: the skips on an immediate. -/
def Obligations.SkipsOnAnImmediate : Prop :=
  ∀ (x : RegIdx) (kk : Byte),
    DecodesFrom (.seImm x kk) 0xF000 0x3000 (fun w => w.extractLsb' 8 4 = x ∧ w.extractLsb' 0 8 = kk) ∧
    DecodesFrom (.sneImm x kk) 0xF000 0x4000 (fun w => w.extractLsb' 8 4 = x ∧ w.extractLsb' 0 8 = kk) ∧
    ∀ s, (∃ t, exec (.seImm x kk) s = .next t ∧
        t.pc = (if s.reg x = kk then s.pc + 4 else s.pc + 2) ∧ ChangesOnly s t [.pc]) ∧
      (∃ t, exec (.sneImm x kk) s = .next t ∧
        t.pc = (if s.reg x = kk then s.pc + 2 else s.pc + 4) ∧ ChangesOnly s t [.pc])

/-- 41_flow.md R105, R106: the skips on two registers; bits 3:0 are ignored (the spec's decision D14, log entry 9). -/
def Obligations.SkipsOnTwoRegisters : Prop :=
  ∀ (x y : RegIdx) (ign : Nibble),
    DecodesFrom (.seReg x y ign) 0xF000 0x5000
      (fun w => w.extractLsb' 8 4 = x ∧ w.extractLsb' 4 4 = y ∧ w.extractLsb' 0 4 = ign) ∧
    DecodesFrom (.sneReg x y ign) 0xF000 0x9000
      (fun w => w.extractLsb' 8 4 = x ∧ w.extractLsb' 4 4 = y ∧ w.extractLsb' 0 4 = ign) ∧
    ∀ s, (∃ t, exec (.seReg x y ign) s = .next t ∧
        t.pc = (if s.reg x = s.reg y then s.pc + 4 else s.pc + 2) ∧ ChangesOnly s t [.pc]) ∧
      (∃ t, exec (.sneReg x y ign) s = .next t ∧
        t.pc = (if s.reg x = s.reg y then s.pc + 2 else s.pc + 4) ∧ ChangesOnly s t [.pc])

/-- 41_flow.md R107: PC becomes nnn + V0, not masked to 12 bits (the spec's decision D13, log entry 10). -/
def Obligations.JpV0AddsV0 : Prop :=
  ∀ nnn : Addr12, DecodesFrom (.jpV0 nnn) 0xF000 0xB000 (fun w => w.extractLsb' 0 12 = nnn) ∧
    ∀ s, ∃ t, exec (.jpV0 nnn) s = .next t ∧ t.pc.toNat = nnn.toNat + (s.reg 0).toNat ∧ ChangesOnly s t [.pc]

/-! Loads and the ALU (42_alu.md). -/

/-- 42_alu.md R120. -/
def Obligations.LdImmLoadsTheByte : Prop :=
  ∀ (x : RegIdx) (kk : Byte),
    DecodesFrom (.ldImm x kk) 0xF000 0x6000 (fun w => w.extractLsb' 8 4 = x ∧ w.extractLsb' 0 8 = kk) ∧
    ∀ s, ∃ t, exec (.ldImm x kk) s = .next t ∧ t.reg x = kk ∧ t.pc = s.pc + 2 ∧ ChangesOnly s t [.reg x, .pc]

/-- 42_alu.md R121: the sum wraps and no flag is written (the spec's decision D31, log entry 14). -/
def Obligations.AddImmWrapsWithoutFlag : Prop :=
  ∀ (x : RegIdx) (kk : Byte),
    DecodesFrom (.addImm x kk) 0xF000 0x7000 (fun w => w.extractLsb' 8 4 = x ∧ w.extractLsb' 0 8 = kk) ∧
    ∀ s, ∃ t, exec (.addImm x kk) s = .next t ∧ (t.reg x).toNat = ((s.reg x).toNat + kk.toNat) % 256 ∧
      t.pc = s.pc + 2 ∧ ChangesOnly s t [.reg x, .pc]

/-- 42_alu.md R122 to R125: copy and the bitwise operations, VF untouched (the spec's decision D31, log entry 14; selectors
by G1, log entry 8). -/
def Obligations.CopyAndLogicOfTwoRegisters : Prop :=
  ∀ x y : RegIdx,
    DecodesFrom (.ldReg x y) 0xF00F 0x8000 (fun w => w.extractLsb' 8 4 = x ∧ w.extractLsb' 4 4 = y) ∧
    DecodesFrom (.orReg x y) 0xF00F 0x8001 (fun w => w.extractLsb' 8 4 = x ∧ w.extractLsb' 4 4 = y) ∧
    DecodesFrom (.andReg x y) 0xF00F 0x8002 (fun w => w.extractLsb' 8 4 = x ∧ w.extractLsb' 4 4 = y) ∧
    DecodesFrom (.xorReg x y) 0xF00F 0x8003 (fun w => w.extractLsb' 8 4 = x ∧ w.extractLsb' 4 4 = y) ∧
    ∀ s, (∃ t, exec (.ldReg x y) s = .next t ∧ t.reg x = s.reg y ∧ t.pc = s.pc + 2 ∧
        ChangesOnly s t [.reg x, .pc]) ∧
      (∃ t, exec (.orReg x y) s = .next t ∧ t.pc = s.pc + 2 ∧ ChangesOnly s t [.reg x, .pc] ∧
        ∀ k, (t.reg x).getLsbD k = ((s.reg x).getLsbD k || (s.reg y).getLsbD k)) ∧
      (∃ t, exec (.andReg x y) s = .next t ∧ t.pc = s.pc + 2 ∧ ChangesOnly s t [.reg x, .pc] ∧
        ∀ k, (t.reg x).getLsbD k = ((s.reg x).getLsbD k && (s.reg y).getLsbD k)) ∧
      (∃ t, exec (.xorReg x y) s = .next t ∧ t.pc = s.pc + 2 ∧ ChangesOnly s t [.reg x, .pc] ∧
        ∀ k, (t.reg x).getLsbD k = ((s.reg x).getLsbD k ^^ (s.reg y).getLsbD k))

/-- 42_alu.md R126: the sum modulo 256, VF 1 exactly when the sum exceeds 255 (D28, log entry 14); with x = F the flag stays
(the spec's decision D9, log entry 12; selector by G1, log entry 8). -/
def Obligations.AddSetsCarry : Prop :=
  ∀ x y : RegIdx,
    DecodesFrom (.addReg x y) 0xF00F 0x8004 (fun w => w.extractLsb' 8 4 = x ∧ w.extractLsb' 4 4 = y) ∧
    ∀ s, ∃ t, exec (.addReg x y) s = .next t ∧
      (x ≠ 0xF → (t.reg x).toNat = ((s.reg x).toNat + (s.reg y).toNat) % 256) ∧
      (t.reg 0xF).toNat = (if (s.reg x).toNat + (s.reg y).toNat > 255 then 1 else 0) ∧
      t.pc = s.pc + 2 ∧ ChangesOnly s t [.reg x, .reg 0xF, .pc]

/-- 42_alu.md R127, R129: SUB is Vx - Vy and SUBN is Vy - Vx modulo 256 (SUBN by D11, G6, log entry 13); VF is 1 exactly when
the minuend is strictly greater, 0 on equality; with x = F the flag stays (D9, log entry 12; selectors by G1, log entry
8). -/
def Obligations.SubAndSubnSetTheGreaterFlag : Prop :=
  ∀ x y : RegIdx,
    DecodesFrom (.subReg x y) 0xF00F 0x8005 (fun w => w.extractLsb' 8 4 = x ∧ w.extractLsb' 4 4 = y) ∧
    DecodesFrom (.subnReg x y) 0xF00F 0x8007 (fun w => w.extractLsb' 8 4 = x ∧ w.extractLsb' 4 4 = y) ∧
    ∀ s, (∃ t, exec (.subReg x y) s = .next t ∧
        (x ≠ 0xF → ((t.reg x).toNat : Int) = ((s.reg x).toNat - (s.reg y).toNat : Int) % 256) ∧
        (t.reg 0xF).toNat = (if (s.reg x).toNat > (s.reg y).toNat then 1 else 0) ∧
        t.pc = s.pc + 2 ∧ ChangesOnly s t [.reg x, .reg 0xF, .pc]) ∧
      (∃ t, exec (.subnReg x y) s = .next t ∧
        (x ≠ 0xF → ((t.reg x).toNat : Int) = ((s.reg y).toNat - (s.reg x).toNat : Int) % 256) ∧
        (t.reg 0xF).toNat = (if (s.reg y).toNat > (s.reg x).toNat then 1 else 0) ∧
        t.pc = s.pc + 2 ∧ ChangesOnly s t [.reg x, .reg 0xF, .pc])

/-- 42_alu.md R128, R130: Vx shifted by one in place, Vy ignored (D10, G7, log entry 13); VF is the bit shifted out, and with
x = F the flag stays (D9, log entry 12; selectors by G1, log entry 8). -/
def Obligations.ShiftsMoveTheLostBitToVF : Prop :=
  ∀ x y : RegIdx,
    DecodesFrom (.shr x y) 0xF00F 0x8006 (fun w => w.extractLsb' 8 4 = x ∧ w.extractLsb' 4 4 = y) ∧
    DecodesFrom (.shl x y) 0xF00F 0x800E (fun w => w.extractLsb' 8 4 = x ∧ w.extractLsb' 4 4 = y) ∧
    ∀ s, (∃ t, exec (.shr x y) s = .next t ∧ (x ≠ 0xF → (t.reg x).toNat = (s.reg x).toNat / 2) ∧
        (t.reg 0xF).toNat = (s.reg x).toNat % 2 ∧ t.pc = s.pc + 2 ∧ ChangesOnly s t [.reg x, .reg 0xF, .pc]) ∧
      (∃ t, exec (.shl x y) s = .next t ∧ (x ≠ 0xF → (t.reg x).toNat = 2 * (s.reg x).toNat % 256) ∧
        (t.reg 0xF).toNat = (s.reg x).toNat / 128 ∧ t.pc = s.pc + 2 ∧ ChangesOnly s t [.reg x, .reg 0xF, .pc])

/-- 42_alu.md R131: Vx becomes a free byte under the mask, a fresh one at every execution (D19, log entry 4); the statement
holds for every value of the free byte. -/
def Obligations.RndMasksAFreeByte : Prop :=
  ∀ (x : RegIdx) (kk : Byte),
    DecodesFrom (.rnd x kk) 0xF000 0xC000 (fun w => w.extractLsb' 8 4 = x ∧ w.extractLsb' 0 8 = kk) ∧
    ∀ s, ∃ t, exec (.rnd x kk) s = .next t ∧ t.reg x = Config.rnd s.draws &&& kk ∧ t.draws = s.draws + 1 ∧
      t.pc = s.pc + 2 ∧ ChangesOnly s t [.reg x, .draws, .pc]

/-! The address register and memory (43_index_memory.md). -/

/-- 43_index_memory.md R140. -/
def Obligations.LdILoadsTheAddress : Prop :=
  ∀ nnn : Addr12, DecodesFrom (.ldI nnn) 0xF000 0xA000 (fun w => w.extractLsb' 0 12 = nnn) ∧
    ∀ s, ∃ t, exec (.ldI nnn) s = .next t ∧ t.i.toNat = nnn.toNat ∧ t.pc = s.pc + 2 ∧ ChangesOnly s t [.i, .pc]

/-- 43_index_memory.md R141, R142: ADD I wraps modulo 65536 and writes no flag (D13, D31, log entries 10, 14); LD F points I
at the glyph, its index clamped to 15 (D15, D16, log entries 6, 15); selectors by G2, log entry 8. -/
def Obligations.AddIAndLdF : Prop :=
  ∀ x : RegIdx,
    DecodesFrom (.addI x) 0xF0FF 0xF01E (fun w => w.extractLsb' 8 4 = x) ∧
    DecodesFrom (.ldF x) 0xF0FF 0xF029 (fun w => w.extractLsb' 8 4 = x) ∧
    ∀ s, (∃ t, exec (.addI x) s = .next t ∧ t.i.toNat = (s.i.toNat + (s.reg x).toNat) % 65536 ∧
        t.pc = s.pc + 2 ∧ ChangesOnly s t [.i, .pc]) ∧
      (∃ t, exec (.ldF x) s = .next t ∧ t.i.toNat = 5 * min (s.reg x).toNat 15 ∧
        t.pc = s.pc + 2 ∧ ChangesOnly s t [.i, .pc])

/-- 43_index_memory.md R143: the decimal digits of Vx go to I, I+1, I+2, each address modulo 4096; no other byte and not I
changes (D12, log entry 10; selector by G2, log entry 8). -/
def Obligations.LdBStoresTheDigits : Prop :=
  ∀ x : RegIdx, DecodesFrom (.ldB x) 0xF0FF 0xF033 (fun w => w.extractLsb' 8 4 = x) ∧
    ∀ s, ∃ t, exec (.ldB x) s = .next t ∧
      (t.mem.read (s.i.toNat % 4096)).toNat = (s.reg x).toNat / 100 ∧
      (t.mem.read ((s.i.toNat + 1) % 4096)).toNat = (s.reg x).toNat / 10 % 10 ∧
      (t.mem.read ((s.i.toNat + 2) % 4096)).toNat = (s.reg x).toNat % 10 ∧
      t.pc = s.pc + 2 ∧ ChangesOnly s t (.pc :: storedBytes s 3)

/-- 43_index_memory.md R144: V0..Vx go to I, ..., I+x, each address modulo 4096; no other byte and not I changes (D12, D21,
log entries 10, 14; selector by G2, log entry 8). -/
def Obligations.StoreRegistersToMemory : Prop :=
  ∀ x : RegIdx, DecodesFrom (.ldMemVx x) 0xF0FF 0xF055 (fun w => w.extractLsb' 8 4 = x) ∧
    ∀ s, ∃ t, exec (.ldMemVx x) s = .next t ∧
      (∀ r : RegIdx, r.toNat ≤ x.toNat → t.mem.read ((s.i.toNat + r.toNat) % 4096) = s.reg r) ∧
      t.pc = s.pc + 2 ∧ ChangesOnly s t (.pc :: storedBytes s (x.toNat + 1))

/-- 43_index_memory.md R145: V0..Vx come from I, ..., I+x, each address modulo 4096; no other register and not I changes
(D12, D21, log entries 10, 14; selector by G2, log entry 8). -/
def Obligations.LoadRegistersFromMemory : Prop :=
  ∀ x : RegIdx, DecodesFrom (.ldVxMem x) 0xF0FF 0xF065 (fun w => w.extractLsb' 8 4 = x) ∧
    ∀ s, ∃ t, exec (.ldVxMem x) s = .next t ∧
      (∀ r : RegIdx, r.toNat ≤ x.toNat → t.reg r = s.mem.read ((s.i.toNat + r.toNat) % 4096)) ∧
      t.pc = s.pc + 2 ∧ ChangesOnly s t (.pc :: lowRegs (x.toNat + 1))

/-! The display (44_display.md). -/

/-- 44_display.md R154, R150: every pixel off, VF untouched (bits 11:8 ignored by the spec's decision D14, log entry 9). -/
def Obligations.ClsClearsEveryPixel : Prop :=
  ∀ ign : Nibble, DecodesFrom (.cls ign) 0xF0FF 0x00E0 (fun w => w.extractLsb' 8 4 = ign) ∧
    ∀ s, ∃ t, exec (.cls ign) s = .next t ∧ (∀ p, t.display.get p = false) ∧ t.pc = s.pc + 2 ∧
      ChangesOnly s t [.display, .pc]

/-- 44_display.md R151, R152: `drawSprite` of at most 15 bytes inverts exactly the pixels its 1 bits land on, coordinates
modulo 64 and 32, reports a collision exactly when one of them was lit, and depends on its coordinates only modulo 64 and
32. -/
def Obligations.DrawSpriteIsPixelwiseXor : Prop :=
  ∀ (d : Display) (x0 y0 : Byte) (bytes : List Byte), bytes.length ≤ 15 →
    SpriteDrawn d (drawSprite d x0 y0 bytes).1 x0 y0 (fun r => bytes.getD r 0) bytes.length ∧
    ((drawSprite d x0 y0 bytes).2 = true ↔ SpriteCollides d x0 y0 (fun r => bytes.getD r 0) bytes.length) ∧
    drawSprite d (BitVec.ofNat 8 (x0.toNat % 64)) (BitVec.ofNat 8 (y0.toNat % 32)) bytes = drawSprite d x0 y0 bytes

/-- 44_display.md R155: DRW draws the n bytes at I, I+1, ... (modulo 4096) at (Vx, Vy), coordinates and bytes as they were
before, and VF is 1 on a collision, else 0; I and the other registers do not change (D9, D12, D22, log entries 10,
12). -/
def Obligations.DrwDrawsTheSpriteAtI : Prop :=
  ∀ (x y : RegIdx) (n : Nibble),
    DecodesFrom (.drw x y n) 0xF000 0xD000
      (fun w => w.extractLsb' 8 4 = x ∧ w.extractLsb' 4 4 = y ∧ w.extractLsb' 0 4 = n) ∧
    ∀ s, ∃ t, exec (.drw x y n) s = .next t ∧
      SpriteDrawn s.display t.display (s.reg x) (s.reg y) (fun r => s.mem.read ((s.i.toNat + r) % 4096)) n.toNat ∧
      (SpriteCollides s.display (s.reg x) (s.reg y) (fun r => s.mem.read ((s.i.toNat + r) % 4096)) n.toNat →
        t.reg 0xF = 1) ∧
      (¬ SpriteCollides s.display (s.reg x) (s.reg y) (fun r => s.mem.read ((s.i.toNat + r) % 4096)) n.toNat →
        t.reg 0xF = 0) ∧
      t.pc = s.pc + 2 ∧ ChangesOnly s t [.display, .reg 0xF, .pc]

/-- 44_display.md R153: drawing the same sprite twice restores the display; the second draw collides exactly when the sprite
has a 1 bit; a draw on a clear display never collides. -/
def Obligations.DrawingTwiceRestoresTheDisplay : Prop :=
  ∀ (d : Display) (x0 y0 : Byte) (bytes : List Byte), bytes.length ≤ 15 →
    (drawSprite (drawSprite d x0 y0 bytes).1 x0 y0 bytes).1 = d ∧
    ((drawSprite (drawSprite blankDisplay x0 y0 bytes).1 x0 y0 bytes).2 = true ↔ ∃ b ∈ bytes, b ≠ 0) ∧
    (drawSprite blankDisplay x0 y0 bytes).2 = false

/-- 44_display.md R156: "No other instruction touches the display", in the step as in the instruction: a step that changes
the display is an accepted Reset or an InstrTick that executes CLS or DRW. -/
def Obligations.OnlyClsAndDrwTouchTheDisplay : Prop :=
  (∀ i s t, exec i s = .next t → (∀ ign, i ≠ .cls ign) → (∀ x y n, i ≠ .drw x y n) → t.display = s.display) ∧
  ∀ s t, step s = .next t → t.display ≠ s.display →
    (s.nextEvent = .reset ∧ s.run = false) ∨
    (s.nextEvent = .instrTick ∧ s.run = true ∧ s.wait = false ∧
      ∃ i, decodeWord s.fetch16 = .instr i ∧ ((∃ ign, i = .cls ign) ∨ ∃ x y n, i = .drw x y n))

/-! Keys and timers (45_keys_timers.md). -/

/-- 45_keys_timers.md R160, R161: the skips on a key; the key is the register's low four bits (the spec's decision D17, log
entry 15) and nothing is consumed. -/
def Obligations.SkipsOnAKey : Prop :=
  ∀ x : RegIdx,
    DecodesFrom (.skp x) 0xF0FF 0xE09E (fun w => w.extractLsb' 8 4 = x) ∧
    DecodesFrom (.sknp x) 0xF0FF 0xE0A1 (fun w => w.extractLsb' 8 4 = x) ∧
    ∀ s, (∃ t, exec (.skp x) s = .next t ∧ ChangesOnly s t [.pc] ∧
        t.pc = (if s.key (BitVec.ofNat 4 ((s.reg x).toNat % 16)) = true then s.pc + 4 else s.pc + 2)) ∧
      (∃ t, exec (.sknp x) s = .next t ∧ ChangesOnly s t [.pc] ∧
        t.pc = (if s.key (BitVec.ofNat 4 ((s.reg x).toNat % 16)) = true then s.pc + 2 else s.pc + 4))

/-- 45_keys_timers.md R162, R164, R165: reading DT, writing DT, writing ST (selectors by G2, log entry 8; ST drives nothing
by D26, log entry 19). -/
def Obligations.TimersAreReadAndWritten : Prop :=
  ∀ x : RegIdx,
    DecodesFrom (.ldVxDt x) 0xF0FF 0xF007 (fun w => w.extractLsb' 8 4 = x) ∧
    DecodesFrom (.ldDtVx x) 0xF0FF 0xF015 (fun w => w.extractLsb' 8 4 = x) ∧
    DecodesFrom (.ldStVx x) 0xF0FF 0xF018 (fun w => w.extractLsb' 8 4 = x) ∧
    ∀ s, (∃ t, exec (.ldVxDt x) s = .next t ∧ t.reg x = s.dt ∧ t.pc = s.pc + 2 ∧ ChangesOnly s t [.reg x, .pc]) ∧
      (∃ t, exec (.ldDtVx x) s = .next t ∧ t.dt = s.reg x ∧ t.pc = s.pc + 2 ∧ ChangesOnly s t [.dt, .pc]) ∧
      (∃ t, exec (.ldStVx x) s = .next t ∧ t.st = s.reg x ∧ t.pc = s.pc + 2 ∧ ChangesOnly s t [.st, .pc])

/-- 45_keys_timers.md R163, the cycle that executes LD Vx, K: the wait begins for x and PC moves on; no key is looked at and
Vx is not written (the spec's decision D18, log entry 16; selector by G2, log entry 8). -/
def Obligations.LdVxKBeginsTheWait : Prop :=
  ∀ x : RegIdx, DecodesFrom (.ldVxK x) 0xF0FF 0xF00A (fun w => w.extractLsb' 8 4 = x) ∧
    ∀ s, ∃ t, exec (.ldVxK x) s = .next t ∧ t.wait = true ∧ t.waitReg = x ∧ t.pc = s.pc + 2 ∧
      ChangesOnly s t [.wait, .waitReg, .pc]

/-- 45_keys_timers.md R163 with 70_reset_and_hazards.md R208: with a press recorded, stale or not, LD Vx, K takes two
InstrTicks: then Vx holds the key, the record is gone, and PC stands at the next instruction (D18, log entry 16). That the two
steps with an empty queue are InstrTicks is log entry 1. -/
def Obligations.LdVxKCompletesInTwoTicks : Prop :=
  ∀ (s : State) (x : RegIdx) (k : KeyIdx), s.pending = [] → s.run = true → s.wait = false → decodeWord s.fetch16 = .instr (.ldVxK x) →
    s.lastKey = some k →
    ∃ t, core.run 2 s = .next t ∧ (t.reg x).toNat = k.toNat ∧ t.lastKey = none ∧ t.wait = false ∧ t.pc = s.pc + 2 ∧
      ChangesOnly s t [.reg x, .lastKey, .waitReg, .pc]

/-- 40_instruction_cycle.md R92, 70_reset_and_hazards.md R213: a key wait lasts until a press. While the events are any but
a press and a Reset, so ticks, timer ticks, releases, Start, Stop, Load and Snapshot in any number and order, the wait goes
on, for the same register, and no register, PC, I, stack slot, SP or pixel changes. With no event sent nothing changes at
all. That a step with an empty queue is an InstrTick is log entry 1; which SetKey records a press is the spec's decision D18
(log entry 16). -/
def Obligations.KeyWaitLastsUntilAPress : Prop :=
  (∀ (s : State) (n : Nat), s.wait = true → s.lastKey = none →
    (∀ e ∈ s.pending, e ≠ .reset ∧ ∀ k, e ≠ .setKey k true) →
    ∃ t, core.run n s = .next t ∧ t.wait = true ∧ t.lastKey = none ∧
      ∀ p, (∀ k, p ≠ .key k) → (∀ a, p ≠ .byte a) → p ∉ [Part.dt, .st, .run, .pending, .outputs] → SamePart s t p) ∧
  ∀ s : State, s.pending = [] → s.run = true → s.wait = true → s.lastKey = none → ∀ n, core.run n s = .next s

/-! Rules about the whole machine. -/

/-- The invariant that every step keeps: memory stays in its canonical form, whatever event or instruction the step
performs. -/
def Obligations.EveryStepKeepsMemoryCanonical : Prop :=
  ∀ s t, MemoryCanonical s → step s = .next t → MemoryCanonical t

/-- The invariant holds at reset, and at power-on with every font and every MEM_INIT (00_scope.md R7, log entry 21). -/
def Obligations.ResetMemoryIsCanonical : Prop :=
  MemoryCanonical State.reset ∧ ∀ g init, MemoryCanonical (State.powerOn g init)

/-- 40_instruction_cycle.md R86: an instruction changes only the state its rule names, for all 34 instructions in every
state; the table of what each rule names is `writes`. -/
def Obligations.AnInstructionChangesOnlyWhatItsRuleNames : Prop :=
  ∀ i s, ∃ t, exec i s = .next t ∧ ChangesOnly s t (writes s i)

/-- 40_instruction_cycle.md R84, R88: after every instruction but jumps, CALL and RET, PC has advanced by 2, and by 4 after
a skip whose condition holds (`skipTaken`; the key of SKP and SKNP by the spec's decision D17, log entry 15). -/
def Obligations.EveryOtherInstructionAdvances : Prop :=
  ∀ i s, setsOwnPc i = false → ∃ t, exec i s = .next t ∧
    (skipTaken s i → t.pc = s.pc + 4) ∧ (¬ skipTaken s i → t.pc = s.pc + 2)

/-- The table of agents of 00_scope.md (after R5): each event changes only the state it may, in every step from every state.
The table's rows are `mayChange`; the queue, from which the event leaves, and the outputs are the model's
own (log entries 1, 3); the parameter FONT never changes (log entry 21). The premise keeps out
states that no run reaches (`EveryStepKeepsMemoryCanonical`). -/
def Obligations.EachEventChangesOnlyItsOwnState : Prop :=
  ∀ s t, MemoryCanonical s → step s = .next t →
    t.pending = s.pending.tail ∧ ∀ p, mayChange s.nextEvent p = false → SamePart s t p

/-- 10_state.md R14: six instructions write VF as a flag, always 0 or 1; every other leaves VF alone unless VF is its named
destination (the spec's decisions D9, D31, log entries 12, 14). -/
def Obligations.ExactlySixInstructionsWriteTheFlag : Prop :=
  ∀ i s, ∃ t, exec i s = .next t ∧
    (writesFlag i = true → t.reg 0xF = 0 ∨ t.reg 0xF = 1) ∧
    (writesFlag i = false → namesDestination 0xF i = false → t.reg 0xF = s.reg 0xF)

/-- 10_state.md R38: no instruction and no event observes ST: two states that differ at most in ST step to two states that
differ at most in ST. The two runs are given the same random bytes: equal draws are equal bytes in the model, log entry 4
(DESIGN CHOICE, unsafe for a comparison of two runs). -/
def Obligations.SoundTimerIsNeverObserved : Prop :=
  ∀ s s' t, SameButSt s s' → step s = .next t → ∃ t', step s' = .next t' ∧ SameButSt t t'

/-- 10_state.md R35: WAITREG means nothing outside a key wait: two states that differ at most in it, neither in a wait, step
to two states that again differ at most in it outside a wait, or to two equal states (as when both begin a wait, or take a
Reset). The two runs are given the same random bytes: equal draws are equal bytes in the model, log entry 4 (DESIGN CHOICE,
unsafe for a comparison of two runs). -/
def Obligations.WaitRegIsNotObservedOutsideAWait : Prop :=
  ∀ s s' t, SameButIdleWaitReg s s' → step s = .next t → ∃ t', step s' = .next t' ∧ SameButIdleWaitReg t t'

/-- 10_state.md, the consequence of R23 to R25: up to 15 nested calls return correctly. Nested CALLs followed by as many RETs
come back to the instruction after the first CALL with the stack as deep as before (D7, D8, log entry 11). -/
def Obligations.FifteenNestedCallsReturn : Prop :=
  ∀ (s : State) (nnns : List Addr12), nnns ≠ [] → s.sp.toNat + nnns.length ≤ 15 →
    ∃ t, execAll (nnns.map Instr.call ++ List.replicate nnns.length (Instr.ret 0)) s = .next t ∧
      t.pc = s.pc + 2 ∧ t.sp = s.sp

/-- 10_state.md, the same consequence, and vectors T-F5, T-F6: a CALL with SP = 15 followed by RET comes back to the address
in slot 14; the 16th return address is lost (D7, D8, log entry 11). -/
def Obligations.SixteenthNestedCallLosesItsReturnAddress : Prop :=
  ∀ (s : State) (nnn : Addr12), s.sp = 15 →
    ∃ t, execAll [.call nnn, .ret 0] s = .next t ∧ t.pc = s.slot 14 ∧ t.sp = 14 ∧ t.slot 15 = s.pc + 2

/-- 40_instruction_cycle.md R91: a self-jump is a final state: while no event is sent, nothing changes any more. That steps
with an empty queue are InstrTicks is log entry 1. -/
def Obligations.SelfJumpIsFinal : Prop :=
  ∀ (s : State) (nnn : Addr12), s.pending = [] → s.run = true → s.wait = false → decodeWord s.fetch16 = .instr (.jp nnn) →
    s.pc.toNat = nnn.toNat → ∀ n, core.run n s = .next s

/-- 20_memory.md R53, R45: a store is seen by the very next fetch, V0 as the high byte: LD [I], V1 with I at the instruction
after it makes the next word V0, V1 (modulo by D12, log entry 10). -/
def Obligations.AStoreIsSeenByTheNextFetch : Prop :=
  ∀ s, s.i = s.pc + 2 → ∃ t, exec (.ldMemVx 1) s = .next t ∧ t.pc = s.i ∧
    t.fetch16.toNat = (s.reg 0).toNat * 256 + (s.reg 1).toNat

/-- 70_reset_and_hazards.md R205, R204: from power-on, Load and Start, then the first word fetched is the program's first two
bytes, at 0x200, whatever the font and MEM_INIT (log entries 2, 21). -/
def Obligations.PowerOnLoadStartRunsTheProgram : Prop :=
  ∀ (g : Config.Glyphs) (init : Config.MemInit) (b0 b1 : Byte) (bytes : List Byte), bytes.length + 2 ≤ 3584 →
    ∃ t, core.run 2 { State.powerOn g init with pending := [.load (b0 :: b1 :: bytes), .start] } = .next t ∧
      t.run = true ∧ t.wait = false ∧ t.pc = 0x0200 ∧ t.pending = [] ∧ t.outputs = [.loadResult true] ∧
      t.fetch16.toNat = b0.toNat * 256 + b1.toNat
end

