-- ==== Sys2Proof/Laws/State.lean ====
section
/-! SUPPORT. The small lemmas of State: what each update leaves of each field, true by rfl, and what a read gives after a
write. -/

namespace Sys2Proof.Machine

/-! setReg -/
@[simp] theorem State.setReg_v (s : State) (x : RegIdx) (b : Byte) : (s.setReg x b).v = s.v.set x.toNat b x.isLt := rfl
@[simp] theorem State.setReg_pc (s : State) (x : RegIdx) (b : Byte) : (s.setReg x b).pc = s.pc := rfl
@[simp] theorem State.setReg_i (s : State) (x : RegIdx) (b : Byte) : (s.setReg x b).i = s.i := rfl
@[simp] theorem State.setReg_stack (s : State) (x : RegIdx) (b : Byte) : (s.setReg x b).stack = s.stack := rfl
@[simp] theorem State.setReg_sp (s : State) (x : RegIdx) (b : Byte) : (s.setReg x b).sp = s.sp := rfl
@[simp] theorem State.setReg_dt (s : State) (x : RegIdx) (b : Byte) : (s.setReg x b).dt = s.dt := rfl
@[simp] theorem State.setReg_st (s : State) (x : RegIdx) (b : Byte) : (s.setReg x b).st = s.st := rfl
@[simp] theorem State.setReg_mem (s : State) (x : RegIdx) (b : Byte) : (s.setReg x b).mem = s.mem := rfl
@[simp] theorem State.setReg_display (s : State) (x : RegIdx) (b : Byte) : (s.setReg x b).display = s.display := rfl
@[simp] theorem State.setReg_keys (s : State) (x : RegIdx) (b : Byte) : (s.setReg x b).keys = s.keys := rfl
@[simp] theorem State.setReg_lastKey (s : State) (x : RegIdx) (b : Byte) : (s.setReg x b).lastKey = s.lastKey := rfl
@[simp] theorem State.setReg_run (s : State) (x : RegIdx) (b : Byte) : (s.setReg x b).run = s.run := rfl
@[simp] theorem State.setReg_wait (s : State) (x : RegIdx) (b : Byte) : (s.setReg x b).wait = s.wait := rfl
@[simp] theorem State.setReg_waitReg (s : State) (x : RegIdx) (b : Byte) : (s.setReg x b).waitReg = s.waitReg := rfl
@[simp] theorem State.setReg_draws (s : State) (x : RegIdx) (b : Byte) : (s.setReg x b).draws = s.draws := rfl
@[simp] theorem State.setReg_pending (s : State) (x : RegIdx) (b : Byte) : (s.setReg x b).pending = s.pending := rfl
@[simp] theorem State.setReg_outputs (s : State) (x : RegIdx) (b : Byte) : (s.setReg x b).outputs = s.outputs := rfl
@[simp] theorem State.setReg_glyphs (s : State) (x : RegIdx) (b : Byte) : (s.setReg x b).glyphs = s.glyphs := rfl

/-! setPc -/
@[simp] theorem State.setPc_v (s : State) (t : Word) : (s.setPc t).v = s.v := rfl
@[simp] theorem State.setPc_pc (s : State) (t : Word) : (s.setPc t).pc = t := rfl
@[simp] theorem State.setPc_i (s : State) (t : Word) : (s.setPc t).i = s.i := rfl
@[simp] theorem State.setPc_stack (s : State) (t : Word) : (s.setPc t).stack = s.stack := rfl
@[simp] theorem State.setPc_sp (s : State) (t : Word) : (s.setPc t).sp = s.sp := rfl
@[simp] theorem State.setPc_dt (s : State) (t : Word) : (s.setPc t).dt = s.dt := rfl
@[simp] theorem State.setPc_st (s : State) (t : Word) : (s.setPc t).st = s.st := rfl
@[simp] theorem State.setPc_mem (s : State) (t : Word) : (s.setPc t).mem = s.mem := rfl
@[simp] theorem State.setPc_display (s : State) (t : Word) : (s.setPc t).display = s.display := rfl
@[simp] theorem State.setPc_keys (s : State) (t : Word) : (s.setPc t).keys = s.keys := rfl
@[simp] theorem State.setPc_lastKey (s : State) (t : Word) : (s.setPc t).lastKey = s.lastKey := rfl
@[simp] theorem State.setPc_run (s : State) (t : Word) : (s.setPc t).run = s.run := rfl
@[simp] theorem State.setPc_wait (s : State) (t : Word) : (s.setPc t).wait = s.wait := rfl
@[simp] theorem State.setPc_waitReg (s : State) (t : Word) : (s.setPc t).waitReg = s.waitReg := rfl
@[simp] theorem State.setPc_draws (s : State) (t : Word) : (s.setPc t).draws = s.draws := rfl
@[simp] theorem State.setPc_pending (s : State) (t : Word) : (s.setPc t).pending = s.pending := rfl
@[simp] theorem State.setPc_outputs (s : State) (t : Word) : (s.setPc t).outputs = s.outputs := rfl
@[simp] theorem State.setPc_glyphs (s : State) (t : Word) : (s.setPc t).glyphs = s.glyphs := rfl

/-! setI -/
@[simp] theorem State.setI_v (s : State) (t : Word) : (s.setI t).v = s.v := rfl
@[simp] theorem State.setI_pc (s : State) (t : Word) : (s.setI t).pc = s.pc := rfl
@[simp] theorem State.setI_i (s : State) (t : Word) : (s.setI t).i = t := rfl
@[simp] theorem State.setI_stack (s : State) (t : Word) : (s.setI t).stack = s.stack := rfl
@[simp] theorem State.setI_sp (s : State) (t : Word) : (s.setI t).sp = s.sp := rfl
@[simp] theorem State.setI_dt (s : State) (t : Word) : (s.setI t).dt = s.dt := rfl
@[simp] theorem State.setI_st (s : State) (t : Word) : (s.setI t).st = s.st := rfl
@[simp] theorem State.setI_mem (s : State) (t : Word) : (s.setI t).mem = s.mem := rfl
@[simp] theorem State.setI_display (s : State) (t : Word) : (s.setI t).display = s.display := rfl
@[simp] theorem State.setI_keys (s : State) (t : Word) : (s.setI t).keys = s.keys := rfl
@[simp] theorem State.setI_lastKey (s : State) (t : Word) : (s.setI t).lastKey = s.lastKey := rfl
@[simp] theorem State.setI_run (s : State) (t : Word) : (s.setI t).run = s.run := rfl
@[simp] theorem State.setI_wait (s : State) (t : Word) : (s.setI t).wait = s.wait := rfl
@[simp] theorem State.setI_waitReg (s : State) (t : Word) : (s.setI t).waitReg = s.waitReg := rfl
@[simp] theorem State.setI_draws (s : State) (t : Word) : (s.setI t).draws = s.draws := rfl
@[simp] theorem State.setI_pending (s : State) (t : Word) : (s.setI t).pending = s.pending := rfl
@[simp] theorem State.setI_outputs (s : State) (t : Word) : (s.setI t).outputs = s.outputs := rfl
@[simp] theorem State.setI_glyphs (s : State) (t : Word) : (s.setI t).glyphs = s.glyphs := rfl

/-! memWrite -/
@[simp] theorem State.memWrite_v (s : State) (a : Word) (b : Byte) : (s.memWrite a b).v = s.v := rfl
@[simp] theorem State.memWrite_pc (s : State) (a : Word) (b : Byte) : (s.memWrite a b).pc = s.pc := rfl
@[simp] theorem State.memWrite_i (s : State) (a : Word) (b : Byte) : (s.memWrite a b).i = s.i := rfl
@[simp] theorem State.memWrite_stack (s : State) (a : Word) (b : Byte) : (s.memWrite a b).stack = s.stack := rfl
@[simp] theorem State.memWrite_sp (s : State) (a : Word) (b : Byte) : (s.memWrite a b).sp = s.sp := rfl
@[simp] theorem State.memWrite_dt (s : State) (a : Word) (b : Byte) : (s.memWrite a b).dt = s.dt := rfl
@[simp] theorem State.memWrite_st (s : State) (a : Word) (b : Byte) : (s.memWrite a b).st = s.st := rfl
@[simp] theorem State.memWrite_mem (s : State) (a : Word) (b : Byte) : (s.memWrite a b).mem = s.mem.write (memIndex a) b := rfl
@[simp] theorem State.memWrite_display (s : State) (a : Word) (b : Byte) : (s.memWrite a b).display = s.display := rfl
@[simp] theorem State.memWrite_keys (s : State) (a : Word) (b : Byte) : (s.memWrite a b).keys = s.keys := rfl
@[simp] theorem State.memWrite_lastKey (s : State) (a : Word) (b : Byte) : (s.memWrite a b).lastKey = s.lastKey := rfl
@[simp] theorem State.memWrite_run (s : State) (a : Word) (b : Byte) : (s.memWrite a b).run = s.run := rfl
@[simp] theorem State.memWrite_wait (s : State) (a : Word) (b : Byte) : (s.memWrite a b).wait = s.wait := rfl
@[simp] theorem State.memWrite_waitReg (s : State) (a : Word) (b : Byte) : (s.memWrite a b).waitReg = s.waitReg := rfl
@[simp] theorem State.memWrite_draws (s : State) (a : Word) (b : Byte) : (s.memWrite a b).draws = s.draws := rfl
@[simp] theorem State.memWrite_pending (s : State) (a : Word) (b : Byte) : (s.memWrite a b).pending = s.pending := rfl
@[simp] theorem State.memWrite_outputs (s : State) (a : Word) (b : Byte) : (s.memWrite a b).outputs = s.outputs := rfl
@[simp] theorem State.memWrite_glyphs (s : State) (a : Word) (b : Byte) : (s.memWrite a b).glyphs = s.glyphs := rfl

/-! push -/
@[simp] theorem State.push_v (s : State) (ret : Word) : (s.push ret).v = s.v := rfl
@[simp] theorem State.push_pc (s : State) (ret : Word) : (s.push ret).pc = s.pc := rfl
@[simp] theorem State.push_i (s : State) (ret : Word) : (s.push ret).i = s.i := rfl
@[simp] theorem State.push_stack (s : State) (ret : Word) : (s.push ret).stack = s.stack.set s.sp.toNat ret s.sp.isLt := rfl
@[simp] theorem State.push_sp (s : State) (ret : Word) : (s.push ret).sp = sat15 (s.sp.toNat + 1) := rfl
@[simp] theorem State.push_dt (s : State) (ret : Word) : (s.push ret).dt = s.dt := rfl
@[simp] theorem State.push_st (s : State) (ret : Word) : (s.push ret).st = s.st := rfl
@[simp] theorem State.push_mem (s : State) (ret : Word) : (s.push ret).mem = s.mem := rfl
@[simp] theorem State.push_display (s : State) (ret : Word) : (s.push ret).display = s.display := rfl
@[simp] theorem State.push_keys (s : State) (ret : Word) : (s.push ret).keys = s.keys := rfl
@[simp] theorem State.push_lastKey (s : State) (ret : Word) : (s.push ret).lastKey = s.lastKey := rfl
@[simp] theorem State.push_run (s : State) (ret : Word) : (s.push ret).run = s.run := rfl
@[simp] theorem State.push_wait (s : State) (ret : Word) : (s.push ret).wait = s.wait := rfl
@[simp] theorem State.push_waitReg (s : State) (ret : Word) : (s.push ret).waitReg = s.waitReg := rfl
@[simp] theorem State.push_draws (s : State) (ret : Word) : (s.push ret).draws = s.draws := rfl
@[simp] theorem State.push_pending (s : State) (ret : Word) : (s.push ret).pending = s.pending := rfl
@[simp] theorem State.push_outputs (s : State) (ret : Word) : (s.push ret).outputs = s.outputs := rfl
@[simp] theorem State.push_glyphs (s : State) (ret : Word) : (s.push ret).glyphs = s.glyphs := rfl

/-! popToPc -/
@[simp] theorem State.popToPc_v (s : State) : (s.popToPc).v = s.v := rfl
@[simp] theorem State.popToPc_pc (s : State) : (s.popToPc).pc = s.slot (sat15 (s.sp.toNat - 1)) := rfl
@[simp] theorem State.popToPc_i (s : State) : (s.popToPc).i = s.i := rfl
@[simp] theorem State.popToPc_stack (s : State) : (s.popToPc).stack = s.stack := rfl
@[simp] theorem State.popToPc_sp (s : State) : (s.popToPc).sp = sat15 (s.sp.toNat - 1) := rfl
@[simp] theorem State.popToPc_dt (s : State) : (s.popToPc).dt = s.dt := rfl
@[simp] theorem State.popToPc_st (s : State) : (s.popToPc).st = s.st := rfl
@[simp] theorem State.popToPc_mem (s : State) : (s.popToPc).mem = s.mem := rfl
@[simp] theorem State.popToPc_display (s : State) : (s.popToPc).display = s.display := rfl
@[simp] theorem State.popToPc_keys (s : State) : (s.popToPc).keys = s.keys := rfl
@[simp] theorem State.popToPc_lastKey (s : State) : (s.popToPc).lastKey = s.lastKey := rfl
@[simp] theorem State.popToPc_run (s : State) : (s.popToPc).run = s.run := rfl
@[simp] theorem State.popToPc_wait (s : State) : (s.popToPc).wait = s.wait := rfl
@[simp] theorem State.popToPc_waitReg (s : State) : (s.popToPc).waitReg = s.waitReg := rfl
@[simp] theorem State.popToPc_draws (s : State) : (s.popToPc).draws = s.draws := rfl
@[simp] theorem State.popToPc_pending (s : State) : (s.popToPc).pending = s.pending := rfl
@[simp] theorem State.popToPc_outputs (s : State) : (s.popToPc).outputs = s.outputs := rfl
@[simp] theorem State.popToPc_glyphs (s : State) : (s.popToPc).glyphs = s.glyphs := rfl

/-! setKeyBit -/
@[simp] theorem State.setKeyBit_v (s : State) (k : KeyIdx) (c : Bool) : (s.setKeyBit k c).v = s.v := rfl
@[simp] theorem State.setKeyBit_pc (s : State) (k : KeyIdx) (c : Bool) : (s.setKeyBit k c).pc = s.pc := rfl
@[simp] theorem State.setKeyBit_i (s : State) (k : KeyIdx) (c : Bool) : (s.setKeyBit k c).i = s.i := rfl
@[simp] theorem State.setKeyBit_stack (s : State) (k : KeyIdx) (c : Bool) : (s.setKeyBit k c).stack = s.stack := rfl
@[simp] theorem State.setKeyBit_sp (s : State) (k : KeyIdx) (c : Bool) : (s.setKeyBit k c).sp = s.sp := rfl
@[simp] theorem State.setKeyBit_dt (s : State) (k : KeyIdx) (c : Bool) : (s.setKeyBit k c).dt = s.dt := rfl
@[simp] theorem State.setKeyBit_st (s : State) (k : KeyIdx) (c : Bool) : (s.setKeyBit k c).st = s.st := rfl
@[simp] theorem State.setKeyBit_mem (s : State) (k : KeyIdx) (c : Bool) : (s.setKeyBit k c).mem = s.mem := rfl
@[simp] theorem State.setKeyBit_display (s : State) (k : KeyIdx) (c : Bool) : (s.setKeyBit k c).display = s.display := rfl
@[simp] theorem State.setKeyBit_keys (s : State) (k : KeyIdx) (c : Bool) : (s.setKeyBit k c).keys = s.keys.set k.toNat c k.isLt := rfl
@[simp] theorem State.setKeyBit_lastKey (s : State) (k : KeyIdx) (c : Bool) : (s.setKeyBit k c).lastKey = s.lastKey := rfl
@[simp] theorem State.setKeyBit_run (s : State) (k : KeyIdx) (c : Bool) : (s.setKeyBit k c).run = s.run := rfl
@[simp] theorem State.setKeyBit_wait (s : State) (k : KeyIdx) (c : Bool) : (s.setKeyBit k c).wait = s.wait := rfl
@[simp] theorem State.setKeyBit_waitReg (s : State) (k : KeyIdx) (c : Bool) : (s.setKeyBit k c).waitReg = s.waitReg := rfl
@[simp] theorem State.setKeyBit_draws (s : State) (k : KeyIdx) (c : Bool) : (s.setKeyBit k c).draws = s.draws := rfl
@[simp] theorem State.setKeyBit_pending (s : State) (k : KeyIdx) (c : Bool) : (s.setKeyBit k c).pending = s.pending := rfl
@[simp] theorem State.setKeyBit_outputs (s : State) (k : KeyIdx) (c : Bool) : (s.setKeyBit k c).outputs = s.outputs := rfl
@[simp] theorem State.setKeyBit_glyphs (s : State) (k : KeyIdx) (c : Bool) : (s.setKeyBit k c).glyphs = s.glyphs := rfl

/-! countDraw -/
@[simp] theorem State.countDraw_v (s : State) : (s.countDraw).v = s.v := rfl
@[simp] theorem State.countDraw_pc (s : State) : (s.countDraw).pc = s.pc := rfl
@[simp] theorem State.countDraw_i (s : State) : (s.countDraw).i = s.i := rfl
@[simp] theorem State.countDraw_stack (s : State) : (s.countDraw).stack = s.stack := rfl
@[simp] theorem State.countDraw_sp (s : State) : (s.countDraw).sp = s.sp := rfl
@[simp] theorem State.countDraw_dt (s : State) : (s.countDraw).dt = s.dt := rfl
@[simp] theorem State.countDraw_st (s : State) : (s.countDraw).st = s.st := rfl
@[simp] theorem State.countDraw_mem (s : State) : (s.countDraw).mem = s.mem := rfl
@[simp] theorem State.countDraw_display (s : State) : (s.countDraw).display = s.display := rfl
@[simp] theorem State.countDraw_keys (s : State) : (s.countDraw).keys = s.keys := rfl
@[simp] theorem State.countDraw_lastKey (s : State) : (s.countDraw).lastKey = s.lastKey := rfl
@[simp] theorem State.countDraw_run (s : State) : (s.countDraw).run = s.run := rfl
@[simp] theorem State.countDraw_wait (s : State) : (s.countDraw).wait = s.wait := rfl
@[simp] theorem State.countDraw_waitReg (s : State) : (s.countDraw).waitReg = s.waitReg := rfl
@[simp] theorem State.countDraw_draws (s : State) : (s.countDraw).draws = s.draws + 1 := rfl
@[simp] theorem State.countDraw_pending (s : State) : (s.countDraw).pending = s.pending := rfl
@[simp] theorem State.countDraw_outputs (s : State) : (s.countDraw).outputs = s.outputs := rfl
@[simp] theorem State.countDraw_glyphs (s : State) : (s.countDraw).glyphs = s.glyphs := rfl

/-! emit -/
@[simp] theorem State.emit_v (s : State) (o : Output) : (s.emit o).v = s.v := rfl
@[simp] theorem State.emit_pc (s : State) (o : Output) : (s.emit o).pc = s.pc := rfl
@[simp] theorem State.emit_i (s : State) (o : Output) : (s.emit o).i = s.i := rfl
@[simp] theorem State.emit_stack (s : State) (o : Output) : (s.emit o).stack = s.stack := rfl
@[simp] theorem State.emit_sp (s : State) (o : Output) : (s.emit o).sp = s.sp := rfl
@[simp] theorem State.emit_dt (s : State) (o : Output) : (s.emit o).dt = s.dt := rfl
@[simp] theorem State.emit_st (s : State) (o : Output) : (s.emit o).st = s.st := rfl
@[simp] theorem State.emit_mem (s : State) (o : Output) : (s.emit o).mem = s.mem := rfl
@[simp] theorem State.emit_display (s : State) (o : Output) : (s.emit o).display = s.display := rfl
@[simp] theorem State.emit_keys (s : State) (o : Output) : (s.emit o).keys = s.keys := rfl
@[simp] theorem State.emit_lastKey (s : State) (o : Output) : (s.emit o).lastKey = s.lastKey := rfl
@[simp] theorem State.emit_run (s : State) (o : Output) : (s.emit o).run = s.run := rfl
@[simp] theorem State.emit_wait (s : State) (o : Output) : (s.emit o).wait = s.wait := rfl
@[simp] theorem State.emit_waitReg (s : State) (o : Output) : (s.emit o).waitReg = s.waitReg := rfl
@[simp] theorem State.emit_draws (s : State) (o : Output) : (s.emit o).draws = s.draws := rfl
@[simp] theorem State.emit_pending (s : State) (o : Output) : (s.emit o).pending = s.pending := rfl
@[simp] theorem State.emit_outputs (s : State) (o : Output) : (s.emit o).outputs = o :: s.outputs := rfl
@[simp] theorem State.emit_glyphs (s : State) (o : Output) : (s.emit o).glyphs = s.glyphs := rfl

/-! advance -/
@[simp] theorem State.advance_v (s : State) : (s.advance).v = s.v := rfl
@[simp] theorem State.advance_pc (s : State) : (s.advance).pc = s.pc + 2 := rfl
@[simp] theorem State.advance_i (s : State) : (s.advance).i = s.i := rfl
@[simp] theorem State.advance_stack (s : State) : (s.advance).stack = s.stack := rfl
@[simp] theorem State.advance_sp (s : State) : (s.advance).sp = s.sp := rfl
@[simp] theorem State.advance_dt (s : State) : (s.advance).dt = s.dt := rfl
@[simp] theorem State.advance_st (s : State) : (s.advance).st = s.st := rfl
@[simp] theorem State.advance_mem (s : State) : (s.advance).mem = s.mem := rfl
@[simp] theorem State.advance_display (s : State) : (s.advance).display = s.display := rfl
@[simp] theorem State.advance_keys (s : State) : (s.advance).keys = s.keys := rfl
@[simp] theorem State.advance_lastKey (s : State) : (s.advance).lastKey = s.lastKey := rfl
@[simp] theorem State.advance_run (s : State) : (s.advance).run = s.run := rfl
@[simp] theorem State.advance_wait (s : State) : (s.advance).wait = s.wait := rfl
@[simp] theorem State.advance_waitReg (s : State) : (s.advance).waitReg = s.waitReg := rfl
@[simp] theorem State.advance_draws (s : State) : (s.advance).draws = s.draws := rfl
@[simp] theorem State.advance_pending (s : State) : (s.advance).pending = s.pending := rfl
@[simp] theorem State.advance_outputs (s : State) : (s.advance).outputs = s.outputs := rfl
@[simp] theorem State.advance_glyphs (s : State) : (s.advance).glyphs = s.glyphs := rfl

/-! clearDisplay -/
@[simp] theorem State.clearDisplay_v (s : State) : (s.clearDisplay).v = s.v := rfl
@[simp] theorem State.clearDisplay_pc (s : State) : (s.clearDisplay).pc = s.pc := rfl
@[simp] theorem State.clearDisplay_i (s : State) : (s.clearDisplay).i = s.i := rfl
@[simp] theorem State.clearDisplay_stack (s : State) : (s.clearDisplay).stack = s.stack := rfl
@[simp] theorem State.clearDisplay_sp (s : State) : (s.clearDisplay).sp = s.sp := rfl
@[simp] theorem State.clearDisplay_dt (s : State) : (s.clearDisplay).dt = s.dt := rfl
@[simp] theorem State.clearDisplay_st (s : State) : (s.clearDisplay).st = s.st := rfl
@[simp] theorem State.clearDisplay_mem (s : State) : (s.clearDisplay).mem = s.mem := rfl
@[simp] theorem State.clearDisplay_display (s : State) : (s.clearDisplay).display = blankDisplay := rfl
@[simp] theorem State.clearDisplay_keys (s : State) : (s.clearDisplay).keys = s.keys := rfl
@[simp] theorem State.clearDisplay_lastKey (s : State) : (s.clearDisplay).lastKey = s.lastKey := rfl
@[simp] theorem State.clearDisplay_run (s : State) : (s.clearDisplay).run = s.run := rfl
@[simp] theorem State.clearDisplay_wait (s : State) : (s.clearDisplay).wait = s.wait := rfl
@[simp] theorem State.clearDisplay_waitReg (s : State) : (s.clearDisplay).waitReg = s.waitReg := rfl
@[simp] theorem State.clearDisplay_draws (s : State) : (s.clearDisplay).draws = s.draws := rfl
@[simp] theorem State.clearDisplay_pending (s : State) : (s.clearDisplay).pending = s.pending := rfl
@[simp] theorem State.clearDisplay_outputs (s : State) : (s.clearDisplay).outputs = s.outputs := rfl
@[simp] theorem State.clearDisplay_glyphs (s : State) : (s.clearDisplay).glyphs = s.glyphs := rfl

/-! setDisplay -/
@[simp] theorem State.setDisplay_v (s : State) (d : Display) : (s.setDisplay d).v = s.v := rfl
@[simp] theorem State.setDisplay_pc (s : State) (d : Display) : (s.setDisplay d).pc = s.pc := rfl
@[simp] theorem State.setDisplay_i (s : State) (d : Display) : (s.setDisplay d).i = s.i := rfl
@[simp] theorem State.setDisplay_stack (s : State) (d : Display) : (s.setDisplay d).stack = s.stack := rfl
@[simp] theorem State.setDisplay_sp (s : State) (d : Display) : (s.setDisplay d).sp = s.sp := rfl
@[simp] theorem State.setDisplay_dt (s : State) (d : Display) : (s.setDisplay d).dt = s.dt := rfl
@[simp] theorem State.setDisplay_st (s : State) (d : Display) : (s.setDisplay d).st = s.st := rfl
@[simp] theorem State.setDisplay_mem (s : State) (d : Display) : (s.setDisplay d).mem = s.mem := rfl
@[simp] theorem State.setDisplay_display (s : State) (d : Display) : (s.setDisplay d).display = d := rfl
@[simp] theorem State.setDisplay_keys (s : State) (d : Display) : (s.setDisplay d).keys = s.keys := rfl
@[simp] theorem State.setDisplay_lastKey (s : State) (d : Display) : (s.setDisplay d).lastKey = s.lastKey := rfl
@[simp] theorem State.setDisplay_run (s : State) (d : Display) : (s.setDisplay d).run = s.run := rfl
@[simp] theorem State.setDisplay_wait (s : State) (d : Display) : (s.setDisplay d).wait = s.wait := rfl
@[simp] theorem State.setDisplay_waitReg (s : State) (d : Display) : (s.setDisplay d).waitReg = s.waitReg := rfl
@[simp] theorem State.setDisplay_draws (s : State) (d : Display) : (s.setDisplay d).draws = s.draws := rfl
@[simp] theorem State.setDisplay_pending (s : State) (d : Display) : (s.setDisplay d).pending = s.pending := rfl
@[simp] theorem State.setDisplay_outputs (s : State) (d : Display) : (s.setDisplay d).outputs = s.outputs := rfl
@[simp] theorem State.setDisplay_glyphs (s : State) (d : Display) : (s.setDisplay d).glyphs = s.glyphs := rfl

/-! dequeue -/
@[simp] theorem State.dequeue_v (s : State) : (s.dequeue).v = s.v := rfl
@[simp] theorem State.dequeue_pc (s : State) : (s.dequeue).pc = s.pc := rfl
@[simp] theorem State.dequeue_i (s : State) : (s.dequeue).i = s.i := rfl
@[simp] theorem State.dequeue_stack (s : State) : (s.dequeue).stack = s.stack := rfl
@[simp] theorem State.dequeue_sp (s : State) : (s.dequeue).sp = s.sp := rfl
@[simp] theorem State.dequeue_dt (s : State) : (s.dequeue).dt = s.dt := rfl
@[simp] theorem State.dequeue_st (s : State) : (s.dequeue).st = s.st := rfl
@[simp] theorem State.dequeue_mem (s : State) : (s.dequeue).mem = s.mem := rfl
@[simp] theorem State.dequeue_display (s : State) : (s.dequeue).display = s.display := rfl
@[simp] theorem State.dequeue_keys (s : State) : (s.dequeue).keys = s.keys := rfl
@[simp] theorem State.dequeue_lastKey (s : State) : (s.dequeue).lastKey = s.lastKey := rfl
@[simp] theorem State.dequeue_run (s : State) : (s.dequeue).run = s.run := rfl
@[simp] theorem State.dequeue_wait (s : State) : (s.dequeue).wait = s.wait := rfl
@[simp] theorem State.dequeue_waitReg (s : State) : (s.dequeue).waitReg = s.waitReg := rfl
@[simp] theorem State.dequeue_draws (s : State) : (s.dequeue).draws = s.draws := rfl
@[simp] theorem State.dequeue_pending (s : State) : (s.dequeue).pending = s.pending.tail := rfl
@[simp] theorem State.dequeue_outputs (s : State) : (s.dequeue).outputs = s.outputs := rfl
@[simp] theorem State.dequeue_glyphs (s : State) : (s.dequeue).glyphs = s.glyphs := rfl

/-! start -/
@[simp] theorem State.start_v (s : State) : (s.start).v = s.v := rfl
@[simp] theorem State.start_pc (s : State) : (s.start).pc = s.pc := rfl
@[simp] theorem State.start_i (s : State) : (s.start).i = s.i := rfl
@[simp] theorem State.start_stack (s : State) : (s.start).stack = s.stack := rfl
@[simp] theorem State.start_sp (s : State) : (s.start).sp = s.sp := rfl
@[simp] theorem State.start_dt (s : State) : (s.start).dt = s.dt := rfl
@[simp] theorem State.start_st (s : State) : (s.start).st = s.st := rfl
@[simp] theorem State.start_mem (s : State) : (s.start).mem = s.mem := rfl
@[simp] theorem State.start_display (s : State) : (s.start).display = s.display := rfl
@[simp] theorem State.start_keys (s : State) : (s.start).keys = s.keys := rfl
@[simp] theorem State.start_lastKey (s : State) : (s.start).lastKey = s.lastKey := rfl
@[simp] theorem State.start_run (s : State) : (s.start).run = true := rfl
@[simp] theorem State.start_wait (s : State) : (s.start).wait = s.wait := rfl
@[simp] theorem State.start_waitReg (s : State) : (s.start).waitReg = s.waitReg := rfl
@[simp] theorem State.start_draws (s : State) : (s.start).draws = s.draws := rfl
@[simp] theorem State.start_pending (s : State) : (s.start).pending = s.pending := rfl
@[simp] theorem State.start_outputs (s : State) : (s.start).outputs = s.outputs := rfl
@[simp] theorem State.start_glyphs (s : State) : (s.start).glyphs = s.glyphs := rfl

/-! stop -/
@[simp] theorem State.stop_v (s : State) : (s.stop).v = s.v := rfl
@[simp] theorem State.stop_pc (s : State) : (s.stop).pc = s.pc := rfl
@[simp] theorem State.stop_i (s : State) : (s.stop).i = s.i := rfl
@[simp] theorem State.stop_stack (s : State) : (s.stop).stack = s.stack := rfl
@[simp] theorem State.stop_sp (s : State) : (s.stop).sp = s.sp := rfl
@[simp] theorem State.stop_dt (s : State) : (s.stop).dt = s.dt := rfl
@[simp] theorem State.stop_st (s : State) : (s.stop).st = s.st := rfl
@[simp] theorem State.stop_mem (s : State) : (s.stop).mem = s.mem := rfl
@[simp] theorem State.stop_display (s : State) : (s.stop).display = s.display := rfl
@[simp] theorem State.stop_keys (s : State) : (s.stop).keys = s.keys := rfl
@[simp] theorem State.stop_lastKey (s : State) : (s.stop).lastKey = s.lastKey := rfl
@[simp] theorem State.stop_run (s : State) : (s.stop).run = false := rfl
@[simp] theorem State.stop_wait (s : State) : (s.stop).wait = s.wait := rfl
@[simp] theorem State.stop_waitReg (s : State) : (s.stop).waitReg = s.waitReg := rfl
@[simp] theorem State.stop_draws (s : State) : (s.stop).draws = s.draws := rfl
@[simp] theorem State.stop_pending (s : State) : (s.stop).pending = s.pending := rfl
@[simp] theorem State.stop_outputs (s : State) : (s.stop).outputs = s.outputs := rfl
@[simp] theorem State.stop_glyphs (s : State) : (s.stop).glyphs = s.glyphs := rfl

/-! takeSnapshot -/
@[simp] theorem State.takeSnapshot_v (s : State) : (s.takeSnapshot).v = s.v := rfl
@[simp] theorem State.takeSnapshot_pc (s : State) : (s.takeSnapshot).pc = s.pc := rfl
@[simp] theorem State.takeSnapshot_i (s : State) : (s.takeSnapshot).i = s.i := rfl
@[simp] theorem State.takeSnapshot_stack (s : State) : (s.takeSnapshot).stack = s.stack := rfl
@[simp] theorem State.takeSnapshot_sp (s : State) : (s.takeSnapshot).sp = s.sp := rfl
@[simp] theorem State.takeSnapshot_dt (s : State) : (s.takeSnapshot).dt = s.dt := rfl
@[simp] theorem State.takeSnapshot_st (s : State) : (s.takeSnapshot).st = s.st := rfl
@[simp] theorem State.takeSnapshot_mem (s : State) : (s.takeSnapshot).mem = s.mem := rfl
@[simp] theorem State.takeSnapshot_display (s : State) : (s.takeSnapshot).display = s.display := rfl
@[simp] theorem State.takeSnapshot_keys (s : State) : (s.takeSnapshot).keys = s.keys := rfl
@[simp] theorem State.takeSnapshot_lastKey (s : State) : (s.takeSnapshot).lastKey = s.lastKey := rfl
@[simp] theorem State.takeSnapshot_run (s : State) : (s.takeSnapshot).run = s.run := rfl
@[simp] theorem State.takeSnapshot_wait (s : State) : (s.takeSnapshot).wait = s.wait := rfl
@[simp] theorem State.takeSnapshot_waitReg (s : State) : (s.takeSnapshot).waitReg = s.waitReg := rfl
@[simp] theorem State.takeSnapshot_draws (s : State) : (s.takeSnapshot).draws = s.draws := rfl
@[simp] theorem State.takeSnapshot_pending (s : State) : (s.takeSnapshot).pending = s.pending := rfl
@[simp] theorem State.takeSnapshot_outputs (s : State) : (s.takeSnapshot).outputs = .snapshot s.display :: s.outputs := rfl
@[simp] theorem State.takeSnapshot_glyphs (s : State) : (s.takeSnapshot).glyphs = s.glyphs := rfl

/-! Agreement on a part. -/

@[simp] theorem samePart_refl (s : State) (p : Part) : SamePart s s p := by cases p <;> rfl

theorem samePart_trans {s t u : State} {p : Part} (h : SamePart s t p) (k : SamePart t u p) : SamePart s u p := by
  cases p <;> exact Eq.trans k h

end Sys2Proof.Machine
end

