-- ==== Sys2Proof/Laws/Memory.lean ====
section
/-! SUPPORT. The laws of memory: what a read gives after each operation, and that each keeps the canonical form. -/

namespace Sys2Proof.Machine

@[simp] theorem Memory.read_nil (a : Nat) : Memory.read [] a = initialByte a := rfl

theorem Memory.read_cons (k : Nat) (b : Byte) (m : Memory) (a : Nat) :
    Memory.read ((k, b) :: m) a = if k = a then b else Memory.read m a := rfl

theorem Memory.read_insertCell (m : Memory) (a : Nat) (b : Byte) (h : ∀ c ∈ m, c.1 ≠ a) (k : Nat) :
    Memory.read (Memory.insertCell a b m) k = if a = k then b else Memory.read m k := by
  induction m with
  | nil => simp [Memory.insertCell, Memory.read_cons]
  | cons c rest ih =>
    obtain ⟨j, d⟩ := c
    have hj : j ≠ a := h (j, d) (by simp)
    have ih := ih (fun c hc => h c (by simp [hc]))
    by_cases hlt : a < j
    · simp [Memory.insertCell, hlt, Memory.read_cons]
    · simp only [Memory.insertCell, hlt, if_false, Memory.read_cons, ih]
      split <;> split <;> simp_all

/-- A filter that keeps every cell of an address leaves what it reads as. -/
theorem Memory.read_filter_of_kept (m : Memory) (p : Host.Cell → Bool) (k : Nat) (h : ∀ b, p (k, b) = true) :
    Memory.read (m.filter p) k = Memory.read m k := by
  induction m with
  | nil => rfl
  | cons c rest ih =>
    obtain ⟨j, d⟩ := c
    by_cases hj : j = k
    · subst hj; simp [h, Memory.read_cons]
    · by_cases hp : p (j, d) = true
      · simp [hp, Memory.read_cons, hj, ih]
      · simp [hp, Memory.read_cons, hj, ih]

/-- A filter that drops every cell of an address leaves its power-on byte. -/
theorem Memory.read_filter_of_dropped (m : Memory) (p : Host.Cell → Bool) (k : Nat) (h : ∀ b, p (k, b) = false) :
    Memory.read (m.filter p) k = initialByte k := by
  induction m with
  | nil => rfl
  | cons c rest ih =>
    obtain ⟨j, d⟩ := c
    by_cases hj : j = k
    · subst hj; simp [h, ih]
    · by_cases hp : p (j, d) = true
      · simp [hp, Memory.read_cons, hj, ih]
      · simp [hp, ih]

/-- The law of memory: a read after a write gives the byte written there and the old byte elsewhere. -/
@[simp] theorem Memory.read_write (m : Memory) (a : Nat) (b : Byte) (k : Nat) :
    (m.write a b).read k = if k = a then b else m.read k := by
  unfold Memory.write
  split
  · next hb =>
    by_cases hk : k = a
    · subst hk
      rw [if_pos rfl, Memory.read_filter_of_dropped _ _ _ (by simp), hb]
    · rw [if_neg hk, Memory.read_filter_of_kept _ _ _ (by simp [hk])]
  · rw [Memory.read_insertCell _ _ _ (by simp)]
    by_cases hk : k = a
    · simp [hk]
    · rw [if_neg (Ne.symm hk), if_neg hk, Memory.read_filter_of_kept _ _ _ (by simp [hk])]

/-- A read after a run of bytes: the bytes inside the run, the old bytes outside. -/
theorem Memory.read_writeBytes (m : Memory) (a : Nat) (bs : List Byte) (k : Nat) :
    (m.writeBytes a bs).read k = if a ≤ k ∧ k < a + bs.length then bs.getD (k - a) 0 else m.read k := by
  induction bs generalizing m a with
  | nil => simp [Memory.writeBytes]
  | cons b bs ih =>
    rw [Memory.writeBytes, ih, Memory.read_write]
    by_cases hk : k = a
    · subst hk; simp
    · by_cases hin : a + 1 ≤ k ∧ k < a + 1 + bs.length
      · have h1 : k - a = (k - (a + 1)) + 1 := by omega
        have h2 : a ≤ k ∧ k < a + (b :: bs).length := by simp; omega
        rw [if_pos hin, if_pos h2, h1]; simp
      · have h2 : ¬ (a ≤ k ∧ k < a + (b :: bs).length) := by simp; omega
        rw [if_neg hin, if_neg h2, if_neg hk]

theorem Memory.read_cellsOf (a : Nat) (bs : List Byte) (k : Nat) :
    Memory.read (Memory.cellsOf a bs) k =
      if a ≤ k ∧ k < a + bs.length then bs.getD (k - a) 0 else initialByte k := by
  induction bs generalizing a with
  | nil => simp [Memory.cellsOf]
  | cons b bs ih =>
    have hstep : Memory.read (Memory.cellsOf a (b :: bs)) k =
        if a = k then b else Memory.read (Memory.cellsOf (a + 1) bs) k := by
      rw [Memory.cellsOf]
      split
      · next hb =>
        by_cases hk : a = k
        · subst hk
          rw [ih, if_neg (by omega), if_pos rfl, hb]
        · rw [if_neg hk]
      · rw [Memory.read_cons]
    rw [hstep, ih]
    by_cases hk : a = k
    · subst hk; simp
    · by_cases hin : a + 1 ≤ k ∧ k < a + 1 + bs.length
      · have h1 : k - a = (k - (a + 1)) + 1 := by omega
        have h2 : a ≤ k ∧ k < a + (b :: bs).length := by simp; omega
        rw [if_neg hk, if_pos hin, if_pos h2, h1]; simp
      · have h2 : ¬ (a ≤ k ∧ k < a + (b :: bs).length) := by simp; omega
        rw [if_neg hk, if_neg hin, if_neg h2]

theorem Memory.read_append_of_none (m n : Memory) (k : Nat) (h : ∀ c ∈ m, c.1 ≠ k) :
    Memory.read (m ++ n) k = Memory.read n k := by
  induction m with
  | nil => rfl
  | cons c rest ih =>
    obtain ⟨j, d⟩ := c
    have hj : j ≠ k := h (j, d) (by simp)
    simp [Memory.read_cons, hj, ih (fun c hc => h c (by simp [hc]))]

theorem Memory.read_append_of_low (m n : Memory) (k : Nat) (h : ∀ c ∈ n, c.1 ≠ k) :
    Memory.read (m ++ n) k = Memory.read m k := by
  induction m with
  | nil =>
    have : Memory.read n k = Memory.read (n ++ []) k := by simp
    rw [List.nil_append, this, Memory.read_append_of_none n [] k h]
  | cons c rest ih =>
    obtain ⟨j, d⟩ := c
    simp [Memory.read_cons, ih]

theorem Memory.cellsOf_ge (a : Nat) (bs : List Byte) : ∀ c ∈ Memory.cellsOf a bs, a ≤ c.1 ∧ c.1 < a + bs.length := by
  induction bs generalizing a with
  | nil => simp [Memory.cellsOf]
  | cons b bs ih =>
    intro c hc
    rw [Memory.cellsOf] at hc
    split at hc
    · have := ih (a + 1) c hc; simp; omega
    · rcases List.mem_cons.mp hc with rfl | hc
      · simp
      · have := ih (a + 1) c hc; simp; omega

/-- What `Load` leaves: the program, zeroes after it, and every byte below 0x200 as it was. -/
theorem Memory.read_replaceProgram (m : Memory) (bytes : List Byte) (h : bytes.length ≤ Config.maxProgram) (k : Nat)
    (hk : k < Config.memSize) :
    (m.replaceProgram bytes).read k =
      if k < Config.programBase then m.read k else bytes.getD (k - Config.programBase) 0 := by
  unfold Memory.replaceProgram
  have hlen : (bytes ++ List.replicate (Config.maxProgram - bytes.length) (0 : Byte)).length = 3584 := by
    simp [Config.maxProgram] at h ⊢; omega
  by_cases hlo : k < Config.programBase
  · rw [Memory.read_append_of_low, Memory.read_filter_of_kept _ _ _ (by simp [hlo]), if_pos hlo]
    intro c hc
    have := Memory.cellsOf_ge _ _ c hc
    omega
  · rw [Memory.read_append_of_none, Memory.read_cellsOf, hlen, if_neg hlo]
    · have hin : Config.programBase ≤ k ∧ k < Config.programBase + 3584 := by
        have h1 : Config.programBase = 512 := rfl
        have h2 : Config.memSize = 4096 := rfl
        omega
      rw [if_pos hin]
      by_cases hb : k - Config.programBase < bytes.length
      · simp [List.getD_eq_getElem?_getD, List.getElem?_append_left hb]
      · simp only [List.getD_eq_getElem?_getD]
        rw [List.getElem?_append_right (by omega), List.getElem?_eq_none (l := bytes) (by omega)]
        rw [List.getElem?_replicate]
        split <;> rfl
    · intro c hc
      simp at hc
      omega

/-! The canonical form. -/

theorem Memory.wfFrom_mono {lo lo' : Nat} (h : lo' ≤ lo) (m : Memory) (hm : Memory.wfFrom lo m = true) :
    Memory.wfFrom lo' m = true := by
  cases m with
  | nil => rfl
  | cons c rest =>
    obtain ⟨k, b⟩ := c
    simp only [Memory.wfFrom, Bool.and_eq_true, decide_eq_true_eq] at hm ⊢
    exact ⟨⟨⟨by omega, hm.1.1.2⟩, hm.1.2⟩, hm.2⟩

theorem Memory.wfFrom_filter (p : Host.Cell → Bool) (lo : Nat) (m : Memory) (hm : Memory.wfFrom lo m = true) :
    Memory.wfFrom lo (m.filter p) = true := by
  induction m generalizing lo with
  | nil => rfl
  | cons c rest ih =>
    obtain ⟨k, b⟩ := c
    simp only [Memory.wfFrom, Bool.and_eq_true, decide_eq_true_eq] at hm
    have hr := ih (k + 1) hm.2
    by_cases hp : p (k, b) = true
    · simp [hp, Memory.wfFrom, hm.1.1.1, hm.1.1.2, hm.1.2, hr]
    · simp [hp]
      exact Memory.wfFrom_mono (by omega) _ hr

theorem Memory.wfFrom_insertCell (lo a : Nat) (b : Byte) (m : Memory) (hm : Memory.wfFrom lo m = true) (hlo : lo ≤ a)
    (ha : a < Config.memSize) (hb : b ≠ initialByte a) (hne : ∀ c ∈ m, c.1 ≠ a) :
    Memory.wfFrom lo (Memory.insertCell a b m) = true := by
  induction m generalizing lo with
  | nil => simp [Memory.insertCell, Memory.wfFrom, hlo, ha, hb]
  | cons c rest ih =>
    obtain ⟨k, d⟩ := c
    have hk : k ≠ a := hne (k, d) (by simp)
    simp only [Memory.wfFrom, Bool.and_eq_true, decide_eq_true_eq] at hm
    rw [Memory.insertCell]
    split
    · simp only [Memory.wfFrom, Bool.and_eq_true, decide_eq_true_eq]
      exact ⟨⟨⟨hlo, ha⟩, hb⟩, ⟨⟨by omega, hm.1.1.2⟩, hm.1.2⟩, hm.2⟩
    · simp only [Memory.wfFrom, Bool.and_eq_true, decide_eq_true_eq]
      exact ⟨⟨⟨hm.1.1.1, hm.1.1.2⟩, hm.1.2⟩, ih (k + 1) hm.2 (by omega) (fun c hc => hne c (by simp [hc]))⟩

/-- A write inside the memory keeps the canonical form. -/
theorem Memory.wf_write (m : Memory) (a : Nat) (b : Byte) (ha : a < Config.memSize) (hm : m.wf = true) :
    (m.write a b).wf = true := by
  unfold Memory.write Memory.wf
  split
  · exact Memory.wfFrom_filter _ _ _ hm
  · next hb => exact Memory.wfFrom_insertCell _ _ _ _ (Memory.wfFrom_filter _ _ _ hm) (by omega) ha hb (by simp)

/-- A run of writes inside the memory keeps the canonical form. -/
theorem Memory.wf_writeBytes (m : Memory) (a : Nat) (bs : List Byte) (ha : a + bs.length ≤ Config.memSize)
    (hm : m.wf = true) : (m.writeBytes a bs).wf = true := by
  induction bs generalizing m a with
  | nil => exact hm
  | cons b bs ih =>
    simp only [List.length_cons] at ha
    exact ih _ _ (by omega) (Memory.wf_write _ _ _ (by omega) hm)

theorem Memory.wfFrom_cellsOf (a : Nat) (bs : List Byte) (ha : a + bs.length ≤ Config.memSize) :
    Memory.wfFrom a (Memory.cellsOf a bs) = true := by
  induction bs generalizing a with
  | nil => rfl
  | cons b bs ih =>
    simp only [List.length_cons] at ha
    have := ih (a + 1) (by omega)
    rw [Memory.cellsOf]
    split
    · exact Memory.wfFrom_mono (by omega) _ this
    · next hb => simp [Memory.wfFrom, this, hb]; omega

theorem Memory.wfFrom_append (lo mid : Nat) (m n : Memory) (hm : Memory.wfFrom lo m = true)
    (hn : Memory.wfFrom mid n = true) (hlt : ∀ c ∈ m, c.1 < mid) (hle : lo ≤ mid) :
    Memory.wfFrom lo (m ++ n) = true := by
  induction m generalizing lo with
  | nil => exact Memory.wfFrom_mono hle _ hn
  | cons c rest ih =>
    obtain ⟨k, b⟩ := c
    have hk : k < mid := hlt (k, b) (by simp)
    simp only [Memory.wfFrom, Bool.and_eq_true, decide_eq_true_eq] at hm
    simp only [List.cons_append, Memory.wfFrom, Bool.and_eq_true, decide_eq_true_eq]
    exact ⟨hm.1, ih (k + 1) hm.2 (fun c hc => hlt c (by simp [hc])) (by omega)⟩

/-- `Load` keeps the canonical form. -/
theorem Memory.wf_replaceProgram (m : Memory) (bytes : List Byte) (h : bytes.length ≤ Config.maxProgram)
    (hm : m.wf = true) : (m.replaceProgram bytes).wf = true := by
  refine Memory.wfFrom_append 0 Config.programBase _ _ (Memory.wfFrom_filter _ _ _ hm)
    (Memory.wfFrom_cellsOf _ _ ?_) ?_ (by omega)
  · simp [Config.programBase, Config.maxProgram, Config.memSize] at h ⊢; omega
  · intro c hc
    simp at hc
    exact hc.2

theorem State.reset_memory_wf : State.reset.mem.wf = true := rfl

/-- A canonical memory lists nothing above the last address, 4095 (20_memory.md R40). -/
theorem Memory.read_beyond (m : Memory) (lo a : Nat) (h : Memory.wfFrom lo m = true) (ha : Config.memSize ≤ a) :
    m.read a = initialByte a := by
  induction m generalizing lo with
  | nil => rfl
  | cons c rest ih =>
    obtain ⟨k, b⟩ := c
    simp only [Memory.wfFrom, Bool.and_eq_true, decide_eq_true_eq] at h
    rw [Memory.read, if_neg (by omega)]
    exact ih _ h.2

end Sys2Proof.Machine
end

