-- ==== Sys2Proof/Laws/Ops.lean ====
section
/-! SUPPORT. What each shared operation can do, said once: registers, stack slots, keys and bytes of memory read after
each. -/

namespace Sys2Proof.Machine

/-! A register after each operation. -/

@[simp] theorem State.reg_setReg (s : State) (x : RegIdx) (b : Byte) (r : RegIdx) :
    (s.setReg x b).reg r = if r = x then b else s.reg r := by
  by_cases h : r = x
  · subst h; simp [State.reg]
  · have hne : x.toNat ≠ r.toNat := fun he => h (BitVec.eq_of_toNat_eq he.symm)
    simp [State.reg, h, Vector.getElem_set_ne _ _ hne]

@[simp] theorem State.reg_setFlag (s : State) (b : Byte) (r : RegIdx) :
    (s.setFlag b).reg r = if r = flagReg then b else s.reg r := State.reg_setReg s flagReg b r

/-- The result first, the flag last (40_instruction_cycle.md R87). -/
@[simp] theorem State.reg_setRegAndFlag (s : State) (x : RegIdx) (b : Byte) (c : Bool) (r : RegIdx) :
    (s.setRegAndFlag x b c).reg r = if r = flagReg then flagByte c else if r = x then b else s.reg r := by
  simp [State.setRegAndFlag]

@[simp] theorem State.reg_setPc (s : State) (t : Word) (q : RegIdx) :
    (s.setPc t).reg q = s.reg q := rfl
@[simp] theorem State.reg_setI (s : State) (t : Word) (q : RegIdx) :
    (s.setI t).reg q = s.reg q := rfl
@[simp] theorem State.reg_memWrite (s : State) (a : Word) (b : Byte) (q : RegIdx) :
    (s.memWrite a b).reg q = s.reg q := rfl
@[simp] theorem State.reg_push (s : State) (ret : Word) (q : RegIdx) :
    (s.push ret).reg q = s.reg q := rfl
@[simp] theorem State.reg_popToPc (s : State) (q : RegIdx) :
    (s.popToPc).reg q = s.reg q := rfl
@[simp] theorem State.reg_setKeyBit (s : State) (k : KeyIdx) (c : Bool) (q : RegIdx) :
    (s.setKeyBit k c).reg q = s.reg q := rfl
@[simp] theorem State.reg_countDraw (s : State) (q : RegIdx) :
    (s.countDraw).reg q = s.reg q := rfl
@[simp] theorem State.reg_emit (s : State) (o : Output) (q : RegIdx) :
    (s.emit o).reg q = s.reg q := rfl
@[simp] theorem State.reg_advance (s : State) (q : RegIdx) :
    (s.advance).reg q = s.reg q := rfl
@[simp] theorem State.reg_clearDisplay (s : State) (q : RegIdx) :
    (s.clearDisplay).reg q = s.reg q := rfl
@[simp] theorem State.reg_setDisplay (s : State) (d : Display) (q : RegIdx) :
    (s.setDisplay d).reg q = s.reg q := rfl
@[simp] theorem State.reg_dequeue (s : State) (q : RegIdx) :
    (s.dequeue).reg q = s.reg q := rfl
@[simp] theorem State.reg_start (s : State) (q : RegIdx) :
    (s.start).reg q = s.reg q := rfl
@[simp] theorem State.reg_stop (s : State) (q : RegIdx) :
    (s.stop).reg q = s.reg q := rfl
@[simp] theorem State.reg_takeSnapshot (s : State) (q : RegIdx) :
    (s.takeSnapshot).reg q = s.reg q := rfl

/-! A stack slot after each operation. -/

@[simp] theorem State.slot_setPc (s : State) (t : Word) (q : BitVec 4) :
    (s.setPc t).slot q = s.slot q := rfl
@[simp] theorem State.slot_setI (s : State) (t : Word) (q : BitVec 4) :
    (s.setI t).slot q = s.slot q := rfl
@[simp] theorem State.slot_memWrite (s : State) (a : Word) (b : Byte) (q : BitVec 4) :
    (s.memWrite a b).slot q = s.slot q := rfl
@[simp] theorem State.slot_popToPc (s : State) (q : BitVec 4) :
    (s.popToPc).slot q = s.slot q := rfl
@[simp] theorem State.slot_setKeyBit (s : State) (k : KeyIdx) (c : Bool) (q : BitVec 4) :
    (s.setKeyBit k c).slot q = s.slot q := rfl
@[simp] theorem State.slot_countDraw (s : State) (q : BitVec 4) :
    (s.countDraw).slot q = s.slot q := rfl
@[simp] theorem State.slot_emit (s : State) (o : Output) (q : BitVec 4) :
    (s.emit o).slot q = s.slot q := rfl
@[simp] theorem State.slot_advance (s : State) (q : BitVec 4) :
    (s.advance).slot q = s.slot q := rfl
@[simp] theorem State.slot_clearDisplay (s : State) (q : BitVec 4) :
    (s.clearDisplay).slot q = s.slot q := rfl
@[simp] theorem State.slot_setDisplay (s : State) (d : Display) (q : BitVec 4) :
    (s.setDisplay d).slot q = s.slot q := rfl
@[simp] theorem State.slot_dequeue (s : State) (q : BitVec 4) :
    (s.dequeue).slot q = s.slot q := rfl
@[simp] theorem State.slot_start (s : State) (q : BitVec 4) :
    (s.start).slot q = s.slot q := rfl
@[simp] theorem State.slot_stop (s : State) (q : BitVec 4) :
    (s.stop).slot q = s.slot q := rfl
@[simp] theorem State.slot_takeSnapshot (s : State) (q : BitVec 4) :
    (s.takeSnapshot).slot q = s.slot q := rfl
@[simp] theorem State.slot_setReg (s : State) (x : RegIdx) (b : Byte) (q : BitVec 4) :
    (s.setReg x b).slot q = s.slot q := rfl
@[simp] theorem State.slot_setFlag (s : State) (b : Byte) (q : BitVec 4) :
    (s.setFlag b).slot q = s.slot q := rfl

/-! A key after each operation. -/

@[simp] theorem State.key_setPc (s : State) (t : Word) (q : KeyIdx) :
    (s.setPc t).key q = s.key q := rfl
@[simp] theorem State.key_setI (s : State) (t : Word) (q : KeyIdx) :
    (s.setI t).key q = s.key q := rfl
@[simp] theorem State.key_memWrite (s : State) (a : Word) (b : Byte) (q : KeyIdx) :
    (s.memWrite a b).key q = s.key q := rfl
@[simp] theorem State.key_push (s : State) (ret : Word) (q : KeyIdx) :
    (s.push ret).key q = s.key q := rfl
@[simp] theorem State.key_popToPc (s : State) (q : KeyIdx) :
    (s.popToPc).key q = s.key q := rfl
@[simp] theorem State.key_countDraw (s : State) (q : KeyIdx) :
    (s.countDraw).key q = s.key q := rfl
@[simp] theorem State.key_emit (s : State) (o : Output) (q : KeyIdx) :
    (s.emit o).key q = s.key q := rfl
@[simp] theorem State.key_advance (s : State) (q : KeyIdx) :
    (s.advance).key q = s.key q := rfl
@[simp] theorem State.key_clearDisplay (s : State) (q : KeyIdx) :
    (s.clearDisplay).key q = s.key q := rfl
@[simp] theorem State.key_setDisplay (s : State) (d : Display) (q : KeyIdx) :
    (s.setDisplay d).key q = s.key q := rfl
@[simp] theorem State.key_dequeue (s : State) (q : KeyIdx) :
    (s.dequeue).key q = s.key q := rfl
@[simp] theorem State.key_start (s : State) (q : KeyIdx) :
    (s.start).key q = s.key q := rfl
@[simp] theorem State.key_stop (s : State) (q : KeyIdx) :
    (s.stop).key q = s.key q := rfl
@[simp] theorem State.key_takeSnapshot (s : State) (q : KeyIdx) :
    (s.takeSnapshot).key q = s.key q := rfl
@[simp] theorem State.key_setReg (s : State) (x : RegIdx) (b : Byte) (q : KeyIdx) :
    (s.setReg x b).key q = s.key q := rfl
@[simp] theorem State.key_setFlag (s : State) (b : Byte) (q : KeyIdx) :
    (s.setFlag b).key q = s.key q := rfl

@[simp] theorem State.slot_push (s : State) (ret : Word) (k : BitVec 4) :
    (s.push ret).slot k = if k = s.sp then ret else s.slot k := by
  by_cases h : k = s.sp
  · subst h; simp [State.slot]
  · have hne : s.sp.toNat ≠ k.toNat := fun he => h (BitVec.eq_of_toNat_eq he.symm)
    simp [State.slot, h, Vector.getElem_set_ne _ _ hne]

@[simp] theorem State.key_setKeyBit (s : State) (j : KeyIdx) (c : Bool) (k : KeyIdx) :
    (s.setKeyBit j c).key k = if k = j then c else s.key k := by
  by_cases h : k = j
  · subst h; simp [State.key]
  · have hne : j.toNat ≠ k.toNat := fun he => h (BitVec.eq_of_toNat_eq he.symm)
    simp [State.key, h, Vector.getElem_set_ne _ _ hne]

@[simp] theorem State.setFlag_pc (s : State) (b : Byte) : (s.setFlag b).pc = s.pc := rfl
@[simp] theorem State.setFlag_i (s : State) (b : Byte) : (s.setFlag b).i = s.i := rfl
@[simp] theorem State.setFlag_stack (s : State) (b : Byte) : (s.setFlag b).stack = s.stack := rfl
@[simp] theorem State.setFlag_sp (s : State) (b : Byte) : (s.setFlag b).sp = s.sp := rfl
@[simp] theorem State.setFlag_dt (s : State) (b : Byte) : (s.setFlag b).dt = s.dt := rfl
@[simp] theorem State.setFlag_st (s : State) (b : Byte) : (s.setFlag b).st = s.st := rfl
@[simp] theorem State.setFlag_mem (s : State) (b : Byte) : (s.setFlag b).mem = s.mem := rfl
@[simp] theorem State.setFlag_display (s : State) (b : Byte) : (s.setFlag b).display = s.display := rfl
@[simp] theorem State.setFlag_keys (s : State) (b : Byte) : (s.setFlag b).keys = s.keys := rfl
@[simp] theorem State.setFlag_lastKey (s : State) (b : Byte) : (s.setFlag b).lastKey = s.lastKey := rfl
@[simp] theorem State.setFlag_run (s : State) (b : Byte) : (s.setFlag b).run = s.run := rfl
@[simp] theorem State.setFlag_wait (s : State) (b : Byte) : (s.setFlag b).wait = s.wait := rfl
@[simp] theorem State.setFlag_waitReg (s : State) (b : Byte) : (s.setFlag b).waitReg = s.waitReg := rfl
@[simp] theorem State.setFlag_draws (s : State) (b : Byte) : (s.setFlag b).draws = s.draws := rfl
@[simp] theorem State.setFlag_pending (s : State) (b : Byte) : (s.setFlag b).pending = s.pending := rfl
@[simp] theorem State.setFlag_outputs (s : State) (b : Byte) : (s.setFlag b).outputs = s.outputs := rfl
@[simp] theorem State.setFlag_glyphs (s : State) (b : Byte) : (s.setFlag b).glyphs = s.glyphs := rfl

@[simp] theorem State.setRegAndFlag_pc (s : State) (x : RegIdx) (b : Byte) (c : Bool) :
    (s.setRegAndFlag x b c).pc = s.pc := rfl
@[simp] theorem State.setRegAndFlag_i (s : State) (x : RegIdx) (b : Byte) (c : Bool) :
    (s.setRegAndFlag x b c).i = s.i := rfl
@[simp] theorem State.setRegAndFlag_stack (s : State) (x : RegIdx) (b : Byte) (c : Bool) :
    (s.setRegAndFlag x b c).stack = s.stack := rfl
@[simp] theorem State.setRegAndFlag_sp (s : State) (x : RegIdx) (b : Byte) (c : Bool) :
    (s.setRegAndFlag x b c).sp = s.sp := rfl
@[simp] theorem State.setRegAndFlag_dt (s : State) (x : RegIdx) (b : Byte) (c : Bool) :
    (s.setRegAndFlag x b c).dt = s.dt := rfl
@[simp] theorem State.setRegAndFlag_st (s : State) (x : RegIdx) (b : Byte) (c : Bool) :
    (s.setRegAndFlag x b c).st = s.st := rfl
@[simp] theorem State.setRegAndFlag_mem (s : State) (x : RegIdx) (b : Byte) (c : Bool) :
    (s.setRegAndFlag x b c).mem = s.mem := rfl
@[simp] theorem State.setRegAndFlag_display (s : State) (x : RegIdx) (b : Byte) (c : Bool) :
    (s.setRegAndFlag x b c).display = s.display := rfl
@[simp] theorem State.setRegAndFlag_keys (s : State) (x : RegIdx) (b : Byte) (c : Bool) :
    (s.setRegAndFlag x b c).keys = s.keys := rfl
@[simp] theorem State.setRegAndFlag_lastKey (s : State) (x : RegIdx) (b : Byte) (c : Bool) :
    (s.setRegAndFlag x b c).lastKey = s.lastKey := rfl
@[simp] theorem State.setRegAndFlag_run (s : State) (x : RegIdx) (b : Byte) (c : Bool) :
    (s.setRegAndFlag x b c).run = s.run := rfl
@[simp] theorem State.setRegAndFlag_wait (s : State) (x : RegIdx) (b : Byte) (c : Bool) :
    (s.setRegAndFlag x b c).wait = s.wait := rfl
@[simp] theorem State.setRegAndFlag_waitReg (s : State) (x : RegIdx) (b : Byte) (c : Bool) :
    (s.setRegAndFlag x b c).waitReg = s.waitReg := rfl
@[simp] theorem State.setRegAndFlag_draws (s : State) (x : RegIdx) (b : Byte) (c : Bool) :
    (s.setRegAndFlag x b c).draws = s.draws := rfl
@[simp] theorem State.setRegAndFlag_pending (s : State) (x : RegIdx) (b : Byte) (c : Bool) :
    (s.setRegAndFlag x b c).pending = s.pending := rfl
@[simp] theorem State.setRegAndFlag_outputs (s : State) (x : RegIdx) (b : Byte) (c : Bool) :
    (s.setRegAndFlag x b c).outputs = s.outputs := rfl
@[simp] theorem State.setRegAndFlag_glyphs (s : State) (x : RegIdx) (b : Byte) (c : Bool) :
    (s.setRegAndFlag x b c).glyphs = s.glyphs := rfl
@[simp] theorem State.slot_setRegAndFlag (s : State) (x : RegIdx) (b : Byte) (c : Bool) (k : BitVec 4) :
    (s.setRegAndFlag x b c).slot k = s.slot k := rfl
@[simp] theorem State.key_setRegAndFlag (s : State) (x : RegIdx) (b : Byte) (c : Bool) (k : KeyIdx) :
    (s.setRegAndFlag x b c).key k = s.key k := rfl

/-! The skip. -/

theorem State.skipIf_eq (s : State) (c : Bool) : s.skipIf c = s.setPc (if c then s.pc + 2 else s.pc) := by
  cases c <;> rfl

/-! Memory. -/

theorem memIndex_lt (addr : Word) : memIndex addr < Config.memSize := Nat.mod_lt _ (by decide)

/-- A byte of memory after a store of one byte. -/
@[simp] theorem State.memRead_memWrite (s : State) (a : Word) (b : Byte) (k : Word) :
    (s.memWrite a b).memRead k = if memIndex k = memIndex a then b else s.memRead k := by
  simp [State.memRead]

/-- The addresses the data instructions use, modulo 4096 (20_memory.md R43, 43_index_memory.md R146). -/
theorem memIndex_dataAddr (s : State) (k : Nat) : memIndex (s.dataAddr k) = (s.i.toNat + k) % 4096 := by
  simp [memIndex, State.dataAddr, Config.memSize]

theorem State.memWrite_wf (s : State) (a : Word) (b : Byte) (h : s.mem.wf = true) : (s.memWrite a b).mem.wf = true :=
  Memory.wf_write _ _ _ (memIndex_lt a) h

/-- Offsets below 4096 from one base reach different bytes of memory. -/
theorem memIndex_dataAddr_inj (s : State) {j k : Nat} (hj : j < 4096) (hk : k < 4096)
    (h : memIndex (s.dataAddr j) = memIndex (s.dataAddr k)) : j = k := by
  simp only [memIndex, State.dataAddr, Config.memSize, BitVec.toNat_add, BitVec.toNat_ofNat] at h
  omega

theorem State.storeRegs_succ (s : State) (n : Nat) :
    s.storeRegs (n + 1) = (s.storeRegs n).memWrite (s.dataAddr n) (s.reg (BitVec.ofNat 4 n)) := by
  unfold State.storeRegs
  rw [List.range_succ, List.foldl_append]
  rfl

theorem State.storeRegs_succ_mem (s : State) (n : Nat) :
    (s.storeRegs (n + 1)).mem = (s.storeRegs n).mem.write (memIndex (s.dataAddr n)) (s.reg (BitVec.ofNat 4 n)) := by
  rw [State.storeRegs_succ]; rfl

/-- `storeRegs` changes nothing but memory. -/
theorem State.storeRegs_eq (s : State) (n : Nat) : s.storeRegs n = { s with mem := (s.storeRegs n).mem } := by
  induction n with
  | zero => rfl
  | succ n ih =>
    rw [State.storeRegs_succ]
    generalize s.storeRegs n = t at ih ⊢
    rw [ih]; rfl

theorem State.storeRegs_wf (s : State) (n : Nat) (h : s.mem.wf = true) : (s.storeRegs n).mem.wf = true := by
  induction n with
  | zero => exact h
  | succ n ih => rw [State.storeRegs_succ]; exact State.memWrite_wf _ _ _ ih

theorem State.storeRegs_read_outside (s : State) (n a : Nat) (h : ∀ k < n, a ≠ memIndex (s.dataAddr k)) :
    (s.storeRegs n).mem.read a = s.mem.read a := by
  induction n with
  | zero => rfl
  | succ n ih =>
    rw [State.storeRegs_succ_mem, Memory.read_write, if_neg (h n (by omega)), ih (fun k hk => h k (by omega))]

theorem State.storeRegs_read_inside (s : State) (n k : Nat) (hk : k < n) (hn : n ≤ 4096) :
    (s.storeRegs n).mem.read (memIndex (s.dataAddr k)) = s.reg (BitVec.ofNat 4 k) := by
  induction n with
  | zero => omega
  | succ n ih =>
    rw [State.storeRegs_succ_mem, Memory.read_write]
    by_cases h : k = n
    · subst h; simp
    · rw [if_neg (fun he => h (memIndex_dataAddr_inj s (by omega) (by omega) he)), ih (by omega) (by omega)]

theorem State.loadRegs_succ (s : State) (n : Nat) :
    s.loadRegs (n + 1) = (s.loadRegs n).setReg (BitVec.ofNat 4 n) (s.memRead (s.dataAddr n)) := by
  unfold State.loadRegs
  rw [List.range_succ, List.foldl_append]
  rfl

/-- `loadRegs` changes nothing but the general registers. -/
theorem State.loadRegs_eq (s : State) (n : Nat) : s.loadRegs n = { s with v := (s.loadRegs n).v } := by
  induction n with
  | zero => rfl
  | succ n ih =>
    rw [State.loadRegs_succ]
    generalize s.loadRegs n = t at ih ⊢
    rw [ih]; rfl

/-- A register after `loadRegs`: the byte at `I + r` for `r` below the bound. -/
theorem State.loadRegs_reg (s : State) (n : Nat) (hn : n ≤ 16) (r : RegIdx) :
    (s.loadRegs n).reg r = if r.toNat < n then s.memRead (s.dataAddr r.toNat) else s.reg r := by
  induction n with
  | zero => simp [State.loadRegs]
  | succ n ih =>
    rw [State.loadRegs_succ, State.reg_setReg, ih (by omega)]
    by_cases h : r = BitVec.ofNat 4 n
    · have hr : r.toNat = n := by rw [h]; simp; omega
      rw [if_pos h, if_pos (by omega), hr]
    · have hr : r.toNat ≠ n := fun he => h (BitVec.eq_of_toNat_eq (by simp; omega))
      rw [if_neg h]
      by_cases hlt : r.toNat < n
      · rw [if_pos hlt, if_pos (by omega)]
      · rw [if_neg hlt, if_neg (by omega)]

/-! The stack pointer. -/

/-- SP counts up and stays at 15 (10_state.md R23, R24). -/
theorem sat15_succ (k : BitVec 4) : (sat15 (k.toNat + 1)).toNat = min (k.toNat + 1) 15 := by
  revert k; decide

/-- SP counts down and stays at 0 (10_state.md R23, R25). -/
theorem sat15_pred (k : BitVec 4) : (sat15 (k.toNat - 1)).toNat = k.toNat - 1 := by
  revert k; decide

end Sys2Proof.Machine
end

