-- ==== Sys2Proof/Laws/Decode.lean ====
section
/-! SUPPORT. What the decode table gives, said once: a word that selects a row decodes to that row's instruction, and a
word decodes only through a row it selects (30_encoding.md R64, R71). -/

namespace Sys2Proof

/-- Two rows differ in a bit both examine, so no word selects both (30_encoding.md R64). -/
def Row.disjoint (r q : Row) : Bool := (r.pat ^^^ q.pat) &&& (r.mask &&& q.mask) != 0

theorem Row.not_selects_both {r q : Row} (h : r.disjoint q = true) {w : Word} (hr : r.selects w = true) :
    q.selects w = false := by
  by_contra hq
  simp only [Row.selects, beq_iff_eq, Bool.not_eq_false] at hr hq
  have hzero : (r.pat ^^^ q.pat) &&& (r.mask &&& q.mask) = 0#16 := by
    rw [← hr, ← hq]
    ext i hi
    simp only [BitVec.getElem_and, BitVec.getElem_xor, BitVec.getElem_zero]
    cases w[i] <;> cases r.mask[i] <;> cases q.mask[i] <;> rfl
  simp [Row.disjoint, hzero] at h

theorem rows_disjoint : rows.Pairwise (fun r q => r.disjoint q = true) := by decide

theorem find_of_disjoint {l : List Row} (hl : l.Pairwise (fun r q => r.disjoint q = true)) {r : Row} (hr : r ∈ l)
    {w : Word} (hw : r.selects w = true) : l.find? (fun q => q.selects w) = some r := by
  induction l with
  | nil => cases hr
  | cons q rest ih =>
    rw [List.pairwise_cons] at hl
    rcases List.mem_cons.mp hr with rfl | hmem
    · exact List.find?_cons_of_pos hw
    · have hq : q.selects w = false := by
        by_contra hne
        have := Row.not_selects_both (hl.1 r hmem) (by simpa using hne) (w := w)
        simp [this] at hw
      rw [List.find?_cons_of_neg (by simp [hq])]
      exact ih hl.2 hmem

/-- A word that selects a row decodes to that row's instruction. -/
theorem decodeWord_of_selects {r : Row} (hr : r ∈ rows) {w : Word} (hw : r.selects w = true) :
    decodeWord w = .instr (r.build w) := by
  simp [decodeWord, find_of_disjoint rows_disjoint hr hw]

/-- A word that decodes to an instruction selects a row that builds it. -/
theorem selects_of_decodeWord {w : Word} {i : Instr} (h : decodeWord w = .instr i) :
    ∃ r ∈ rows, r.selects w = true ∧ r.build w = i := by
  unfold decodeWord at h
  split at h
  · next r hr =>
    exact ⟨r, List.mem_of_find?_eq_some hr, by simpa using List.find?_some hr, by injection h⟩
  · cases h

/-- A word is unrecognized exactly when it selects no row, and the result names the word. -/
theorem decodeWord_unrecognized_iff {w u : Word} :
    decodeWord w = .unrecognized u ↔ (u = w ∧ ∀ r ∈ rows, r.selects w = false) := by
  unfold decodeWord
  split
  · next r hr =>
    constructor
    · intro h; cases h
    · rintro ⟨-, h⟩
      have := h r (List.mem_of_find?_eq_some hr)
      have h2 := List.find?_some hr
      simp_all
  · next hn =>
    simp only [Decoded.unrecognized.injEq, List.find?_eq_none] at hn ⊢
    constructor
    · rintro rfl; exact ⟨rfl, fun r hr => by simpa using hn r hr⟩
    · rintro ⟨rfl, -⟩; rfl

/-- A row that alone builds `i` is where `i` is decoded from: the way to every `DecodesFrom`. -/
theorem decodesFrom_of_row {i : Instr} {r : Row} (hr : r ∈ rows) {fields : Word → Prop}
    (hbuild : ∀ w, r.build w = i ↔ fields w)
    (honly : ∀ q ∈ rows, ∀ w, q.build w = i → q.mask = r.mask ∧ q.pat = r.pat) :
    DecodesFrom i r.mask r.pat fields := by
  intro w
  constructor
  · intro h
    obtain ⟨q, hq, hs, hbq⟩ := selects_of_decodeWord h
    obtain ⟨hmask, hpat⟩ := honly q hq w hbq
    have hsel : r.selects w = true := by simpa [Row.selects, hmask, hpat] using hs
    have hd := decodeWord_of_selects hr hsel
    rw [h] at hd
    exact ⟨by simpa [Row.selects] using hsel, (hbuild w).mp (by injection hd with hd; exact hd.symm)⟩
  · rintro ⟨hw, hf⟩
    rw [decodeWord_of_selects hr (by simpa [Row.selects] using hw), (hbuild w).mpr hf]

/-- Decoding two bytes is decoding the big-endian word they make. -/
theorem decodeBytes_pair (hi lo : Byte) (rest : List Byte) : decodeBytes (hi :: lo :: rest) =
    match decodeWord (wordOfBytes hi lo) with
    | .instr i => .instr i rest
    | .unrecognized w => .unrecognized w rest := rfl

@[simp] theorem wordOfBytes_high_low (w : Word) : wordOfBytes (highByte w) (lowByte w) = w := by
  apply BitVec.eq_of_getLsbD_eq
  intro k hk
  simp only [wordOfBytes, highByte, lowByte, BitVec.getLsbD_append, BitVec.getLsbD_extractLsb']
  split
  · simp [*]
  · have h1 : 8 + (k - 8) = k := by omega
    have h2 : k - 8 < 8 := by omega
    simp [h1, h2]

/-! The formats of R62: the fields of a word put together from its fields, and what the masks of R64 leave of it. -/

theorem fieldNNN_wordA (op : Nibble) (nnn : Addr12) : fieldNNN (wordA op nnn) = nnn := by
  apply BitVec.eq_of_getLsbD_eq
  intro k hk
  interval_cases k <;> simp [fieldNNN, wordA]

theorem fieldX_wordXK (op x : Nibble) (kk : Byte) : fieldX (wordXK op x kk) = x := by
  apply BitVec.eq_of_getLsbD_eq
  intro k hk
  interval_cases k <;> simp [fieldX, wordXK]

theorem fieldKK_wordXK (op x : Nibble) (kk : Byte) : fieldKK (wordXK op x kk) = kk := by
  apply BitVec.eq_of_getLsbD_eq
  intro k hk
  interval_cases k <;> simp [fieldKK, wordXK]

theorem fieldX_wordXYN (op x y n : Nibble) : fieldX (wordXYN op x y n) = x := by
  apply BitVec.eq_of_getLsbD_eq
  intro k hk
  interval_cases k <;> simp [fieldX, wordXYN]

theorem fieldY_wordXYN (op x y n : Nibble) : fieldY (wordXYN op x y n) = y := by
  apply BitVec.eq_of_getLsbD_eq
  intro k hk
  interval_cases k <;> simp [fieldY, wordXYN]

theorem fieldN_wordXYN (op x y n : Nibble) : fieldN (wordXYN op x y n) = n := by
  apply BitVec.eq_of_getLsbD_eq
  intro k hk
  interval_cases k <;> simp [fieldN, wordXYN]

theorem wordA_mask (op : Nibble) (nnn : Addr12) : wordA op nnn &&& 0xF000 = wordA op 0 := by
  apply BitVec.eq_of_getLsbD_eq
  intro k hk
  interval_cases k <;> simp [wordA]

theorem wordXK_mask (op x : Nibble) (kk : Byte) : wordXK op x kk &&& 0xF000 = wordXK op 0 0 := by
  apply BitVec.eq_of_getLsbD_eq
  intro k hk
  interval_cases k <;> simp [wordXK]

theorem wordXK_mask_low (op x : Nibble) (kk : Byte) : wordXK op x kk &&& 0xF0FF = wordXK op 0 kk := by
  apply BitVec.eq_of_getLsbD_eq
  intro k hk
  interval_cases k <;> simp [wordXK]

theorem wordXYN_mask (op x y n : Nibble) : wordXYN op x y n &&& 0xF000 = wordXYN op 0 0 0 := by
  apply BitVec.eq_of_getLsbD_eq
  intro k hk
  interval_cases k <;> simp [wordXYN]

theorem wordXYN_mask_low (op x y n : Nibble) : wordXYN op x y n &&& 0xF00F = wordXYN op 0 0 n := by
  apply BitVec.eq_of_getLsbD_eq
  intro k hk
  interval_cases k <;> simp [wordXYN]

end Sys2Proof
end

