-- ==== Sys2Proof/Laws/Display.lean ====
section
/-! SUPPORT. What the compositor does to each pixel, said once. -/

namespace Sys2Proof.Machine

@[simp] theorem Display.get_blank (p : Pixel) : blankDisplay.get p = false := by simp [Display.get, blankDisplay]

theorem Display.ext_get {d e : Display} (h : ∀ p, d.get p = e.get p) : d = e := by
  apply Vector.ext
  intro y hy
  apply Vector.ext
  intro x hx
  exact h (⟨y, hy⟩, ⟨x, hx⟩)

theorem Display.get_invert (d : Display) (p q : Pixel) :
    (d.invert p).get q = if q = p then !(d.get p) else d.get q := by
  obtain ⟨⟨py, hpy⟩, ⟨px, hpx⟩⟩ := p
  obtain ⟨⟨qy, hqy⟩, ⟨qx, hqx⟩⟩ := q
  simp only [Display.invert, Display.get, Fin.getElem_fin, Vector.getElem_set, Prod.mk.injEq, Fin.mk.injEq]
  by_cases hy : py = qy
  · subst hy
    by_cases hx : px = qx
    · subst hx; simp
    · simp [hx, Ne.symm hx]
  · simp [hy, Ne.symm hy]

/-- Pixels that do not repeat: each is inverted once, and a collision is a lit one among them. -/
theorem plot_foldl (ps : List Pixel) (h : ps.Nodup) (d : Display) (c : Bool) :
    (∀ q, ((ps.foldl plot (d, c)).1).get q = if q ∈ ps then !(d.get q) else d.get q) ∧
      ((ps.foldl plot (d, c)).2 = true ↔ c = true ∨ ∃ p ∈ ps, d.get p = true) := by
  induction ps generalizing d c with
  | nil => simp
  | cons p ps ih =>
    obtain ⟨hp, hn⟩ := List.nodup_cons.mp h
    obtain ⟨h1, h2⟩ := ih hn (d.invert p) (c || d.get p)
    have he : ∀ q ∈ ps, (d.invert p).get q = d.get q := fun q hq => by
      rw [Display.get_invert, if_neg]
      rintro rfl
      exact hp hq
    refine ⟨fun q => ?_, ?_⟩
    · rw [List.foldl_cons, plot, h1 q]
      by_cases hq : q ∈ ps
      · simp [hq, he q hq]
      · by_cases hqp : q = p
        · subst hqp; simp [hq, Display.get_invert]
        · simp [hq, hqp, Display.get_invert]
    · rw [List.foldl_cons, plot, h2]
      constructor
      · rintro (hc | ⟨q, hq, hd⟩)
        · rcases Bool.or_eq_true _ _ ▸ hc with hc | hc
          · exact .inl hc
          · exact .inr ⟨p, List.mem_cons_self, hc⟩
        · exact .inr ⟨q, List.mem_cons_of_mem _ hq, he q hq ▸ hd⟩
      · rintro (hc | ⟨q, hq, hd⟩)
        · exact .inl (by simp [hc])
        · rcases List.mem_cons.mp hq with rfl | hq
          · exact .inl (by simp [hd])
          · exact .inr ⟨q, hq, (he q hq).symm ▸ hd⟩

/-- Which pixels the bytes of a sprite from row `row` on invert. -/
theorem mem_spritePixelsFrom (x0 y0 : Byte) (row : Nat) (bytes : List Byte) (p : Pixel) :
    p ∈ spritePixelsFrom x0 y0 row bytes ↔
      ∃ r c, r < bytes.length ∧ c < 8 ∧ (bytes.getD r 0).getLsbD (7 - c) = true ∧ spritePixel x0 y0 (row + r) c = p := by
  induction bytes generalizing row with
  | nil => simp [spritePixelsFrom]
  | cons b bs ih =>
    rw [spritePixelsFrom, List.mem_append, ih]
    simp only [rowPixels, List.mem_map, List.mem_filter, List.mem_range]
    constructor
    · rintro (⟨c, ⟨hc, hb⟩, he⟩ | ⟨r, c, hr, hc, hb, he⟩)
      · exact ⟨0, c, by simp, hc, by simpa using hb, by simpa using he⟩
      · exact ⟨r + 1, c, by simpa using hr, hc, by simpa using hb, by rw [← he]; congr 1; omega⟩
    · rintro ⟨r, c, hr, hc, hb, he⟩
      cases r with
      | zero => exact .inl ⟨c, ⟨hc, by simpa using hb⟩, by simpa using he⟩
      | succ r =>
        exact .inr ⟨r, c, by simpa using hr, hc, by simpa using hb, by rw [← he]; congr 1; omega⟩

/-- Two bits of a sprite of at most 32 rows land on different pixels. -/
theorem spritePixel_inj (x0 y0 : Byte) {r c r' c' : Nat} (hr : r < 32) (hr' : r' < 32) (hc : c < 8) (hc' : c' < 8)
    (h : spritePixel x0 y0 r c = spritePixel x0 y0 r' c') : r = r' ∧ c = c' := by
  simp only [spritePixel, Prod.mk.injEq, Fin.ext_iff, Fin.val_ofNat] at h
  omega

theorem spritePixelsFrom_nodup (x0 y0 : Byte) (row : Nat) (bytes : List Byte) (h : row + bytes.length ≤ 32) :
    (spritePixelsFrom x0 y0 row bytes).Nodup := by
  induction bytes generalizing row with
  | nil => simp [spritePixelsFrom]
  | cons b bs ih =>
    simp only [List.length_cons] at h
    rw [spritePixelsFrom, List.nodup_append]
    refine ⟨?_, ih _ (by omega), ?_⟩
    · unfold rowPixels
      refine List.Nodup.map_on ?_ (List.nodup_range.filter _)
      intro c hc c' hc' he
      simp only [List.mem_filter, List.mem_range] at hc hc'
      exact (spritePixel_inj x0 y0 (by omega) (by omega) hc.1 hc'.1 he).2
    · intro p hp q hq hpq
      subst hpq
      simp only [rowPixels, List.mem_map, List.mem_filter, List.mem_range] at hp
      obtain ⟨c, ⟨hc, -⟩, rfl⟩ := hp
      obtain ⟨r, c', hr, hc', -, he⟩ := (mem_spritePixelsFrom _ _ _ _ _).mp hq
      have := (spritePixel_inj x0 y0 (by omega) (by omega) hc' hc he).1
      omega

/-- The pixels a sprite inverts are those its 1 bits hit (44_display.md R151). -/
theorem mem_spritePixelsFrom_iff_hits (x0 y0 : Byte) (bytes : List Byte) (p : Pixel) :
    p ∈ spritePixelsFrom x0 y0 0 bytes ↔ SpriteHits x0 y0 (fun r => bytes.getD r 0) bytes.length p := by
  rw [mem_spritePixelsFrom]
  constructor
  · rintro ⟨r, c, h1, h2, h3, rfl⟩
    exact ⟨r, c, h1, h2, h3, by simp [spritePixel], by simp [spritePixel]⟩
  · rintro ⟨r, c, h1, h2, h3, h4, h5⟩
    exact ⟨r, c, h1, h2, h3, by ext <;> simp [spritePixel, h4, h5]⟩

/-- Which pixels a sprite hits depends on its first `len` bytes only. -/
theorem spriteHits_congr {x0 y0 : Byte} {f g : Nat → Byte} {len : Nat} (h : ∀ r, r < len → f r = g r) {p : Pixel}
    (hp : SpriteHits x0 y0 f len p) : SpriteHits x0 y0 g len p := by
  obtain ⟨r, c, h1, h2, h3, h4⟩ := hp
  exact ⟨r, c, h1, h2, by rw [← h r h1]; exact h3, h4⟩

theorem State.spriteBytes_length (s : State) (n : Nibble) : (s.spriteBytes n).length = n.toNat := by
  simp [State.spriteBytes]

theorem State.spriteBytes_getD (s : State) (n : Nibble) (r : Nat) (h : r < n.toNat) :
    (s.spriteBytes n).getD r 0 = s.memRead (s.dataAddr r) := by
  simp [State.spriteBytes, h]

end Sys2Proof.Machine
end

