-- ==== Sys2Proof/Laws/Events.lean ====
section
/-! SUPPORT. What each event does to the state, said once, and the step as the delivery of the next event. -/

namespace Sys2Proof.Machine

/-! The step. -/

theorem step_of_nextEvent {s : State} {e : Event} (h : s.nextEvent = e) : step s = deliver e s.dequeue := by
  rw [step, h]

@[simp] theorem State.nextEvent_of_cons {s : State} {e : Event} {rest : List Event} (h : s.pending = e :: rest) :
    s.nextEvent = e := by simp [State.nextEvent, h]

@[simp] theorem State.nextEvent_of_nil {s : State} (h : s.pending = []) : s.nextEvent = .instrTick := by
  simp [State.nextEvent, h]

/-- A run goes on from the state a step answers. -/
theorem core_run_succ {s t : State} (n : Nat) (h : step s = .next t) : core.run (n + 1) s = core.run n t := by
  have hc : core.step s = .next t := h
  simp only [Host.Core.run, hc]

theorem State.dequeue_of_nil {s : State} (h : s.pending = []) : s.dequeue = s := by
  cases s; simp_all [State.dequeue]

@[simp] theorem State.fetch16_dequeue (s : State) : s.dequeue.fetch16 = s.fetch16 := rfl

@[simp] theorem State.memRead_dequeue (s : State) (a : Word) : s.dequeue.memRead a = s.memRead a := rfl

/-! The instruction cycle. -/

theorem instrTick_stopped {s : State} (h : s.run = false) : instrTick s = .next s := by simp [instrTick, h]

theorem instrTick_waiting {s : State} (h : s.run = true) (hw : s.wait = true) : instrTick s = .next s.pollKey := by
  simp [instrTick, h, hw]

theorem instrTick_running {s : State} (h : s.run = true) (hw : s.wait = false) : instrTick s = instrCycle s := by
  simp [instrTick, h, hw]

theorem State.pollKey_none {s : State} (h : s.lastKey = none) : s.pollKey = s := by simp [State.pollKey, h]

theorem State.pollKey_some {s : State} {k : KeyIdx} (h : s.lastKey = some k) :
    s.pollKey = State.setReg { s with lastKey := none, wait := false } s.waitReg (k.setWidth 8) := by
  simp [State.pollKey, h]

/-! The other events, each as one record update. -/

theorem State.timerTick_eq (s : State) :
    s.timerTick = { s with
      dt := if s.run then countDown s.dt else s.dt, st := if s.run then countDown s.st else s.st } := by
  unfold State.timerTick
  by_cases h : s.run = true
  · simp only [if_pos h]
  · simp only [if_neg h]

theorem countDown_toNat (t : Byte) : (countDown t).toNat = t.toNat - 1 := by
  revert t; decide

theorem State.deliverKey_eq (s : State) (k : KeyIdx) (pressed : Bool) :
    s.deliverKey k pressed = { s with
      keys := (s.setKeyBit k pressed).keys,
      lastKey := if pressed = true ∧ s.key k = false then some k else s.lastKey } := by
  simp only [State.deliverKey, State.setKeyBit]
  by_cases h : pressed = true ∧ s.key k = false
  · simp [h]
  · rw [if_neg h, if_neg (by simpa using h)]

theorem State.acceptsLoad_iff (s : State) (bytes : List Byte) :
    s.acceptsLoad bytes = true ↔ s.run = false ∧ 0 < bytes.length ∧ bytes.length ≤ 3584 := by
  have h : (decide (bytes.length ≤ Config.maxProgram) = true) ↔ bytes.length ≤ 3584 := decide_eq_true_iff
  simp only [State.acceptsLoad, Bool.and_eq_true, h, decide_eq_true_eq, Bool.not_eq_true', and_assoc]

theorem State.loadProgram_eq (s : State) (bytes : List Byte) :
    s.loadProgram bytes = { s with
      mem := if s.acceptsLoad bytes then s.mem.replaceProgram bytes else s.mem,
      outputs := .loadResult (s.acceptsLoad bytes) :: s.outputs } := by
  unfold State.loadProgram State.emit
  cases s.acceptsLoad bytes <;> simp

/-! Reset. -/

@[simp] theorem State.reinitialise_v (s : State) : s.reinitialise.v = State.reset.v := by
  simp only [State.reinitialise]
@[simp] theorem State.reinitialise_pc (s : State) : s.reinitialise.pc = State.reset.pc := by
  simp only [State.reinitialise]
@[simp] theorem State.reinitialise_i (s : State) : s.reinitialise.i = State.reset.i := by
  simp only [State.reinitialise]
@[simp] theorem State.reinitialise_stack (s : State) : s.reinitialise.stack = State.reset.stack := by
  simp only [State.reinitialise]
@[simp] theorem State.reinitialise_sp (s : State) : s.reinitialise.sp = State.reset.sp := by
  simp only [State.reinitialise]
@[simp] theorem State.reinitialise_dt (s : State) : s.reinitialise.dt = State.reset.dt := by
  simp only [State.reinitialise]
@[simp] theorem State.reinitialise_st (s : State) : s.reinitialise.st = State.reset.st := by
  simp only [State.reinitialise]
@[simp] theorem State.reinitialise_mem (s : State) : s.reinitialise.mem = s.mem.writeBytes 0 (font s.glyphs) := by
  simp only [State.reinitialise]
@[simp] theorem State.reinitialise_display (s : State) : s.reinitialise.display = State.reset.display := by
  simp only [State.reinitialise]
@[simp] theorem State.reinitialise_keys (s : State) : s.reinitialise.keys = State.reset.keys := by
  simp only [State.reinitialise]
@[simp] theorem State.reinitialise_lastKey (s : State) : s.reinitialise.lastKey = State.reset.lastKey := by
  simp only [State.reinitialise]
@[simp] theorem State.reinitialise_run (s : State) : s.reinitialise.run = s.run := by
  simp only [State.reinitialise]
@[simp] theorem State.reinitialise_wait (s : State) : s.reinitialise.wait = State.reset.wait := by
  simp only [State.reinitialise]
@[simp] theorem State.reinitialise_waitReg (s : State) : s.reinitialise.waitReg = State.reset.waitReg := by
  simp only [State.reinitialise]
@[simp] theorem State.reinitialise_draws (s : State) : s.reinitialise.draws = s.draws := by
  simp only [State.reinitialise]
@[simp] theorem State.reinitialise_pending (s : State) : s.reinitialise.pending = s.pending := by
  simp only [State.reinitialise]
@[simp] theorem State.reinitialise_outputs (s : State) : s.reinitialise.outputs = s.outputs := by
  simp only [State.reinitialise]
@[simp] theorem State.reinitialise_glyphs (s : State) : s.reinitialise.glyphs = s.glyphs := by
  simp only [State.reinitialise]

/-! The font and power-on. -/

/-- The bytes of equally long rows, one row after the other. -/
theorem getElem_flatMap_toList {n m : Nat} (rows : List (Vector Byte m)) (hn : rows.length = n) (d r : Nat) (hd : d < n)
    (hr : r < m) : (rows.flatMap Vector.toList)[m * d + r]? = some ((rows[d]'(hn ▸ hd))[r]) := by
  induction rows generalizing n d with
  | nil => simp at hn; omega
  | cons row rows ih =>
    rw [List.flatMap_cons]
    cases d with
    | zero => rw [List.getElem?_append_left (by simpa using hr)]; simp [hr]
    | succ d =>
      rw [List.getElem?_append_right (by simp [Nat.mul_succ]; omega)]
      have he : m * (d + 1) + r - row.toList.length = m * d + r := by simp [Nat.mul_succ]; omega
      rw [he, ih (n := rows.length) rfl d (by simp at hn; omega)]
      simp

@[simp] theorem font_length (g : Config.Glyphs) : (font g).length = 80 := by
  have h : ∀ rows : List (Vector Byte 5), (rows.flatMap Vector.toList).length = 5 * rows.length := by
    intro rows
    induction rows with
    | nil => rfl
    | cons row rows ih => simp [ih, Nat.mul_add]; omega
  rw [font, List.length_append, h]
  simp [glyphZero]

/-- Where glyph `d + 1` stands in the font (20_memory.md R42). -/
theorem font_getD (g : Config.Glyphs) (d : Fin 15) (r : Fin 5) :
    (font g).getD (5 * (d.val + 1) + r.val) 0 = g[d][r] := by
  rw [List.getD_eq_getElem?_getD, font, List.getElem?_append_right (by simp [glyphZero]; omega)]
  have he : 5 * (d.val + 1) + r.val - glyphZero.length = 5 * d.val + r.val := by simp [glyphZero]; omega
  rw [he, getElem_flatMap_toList g.toList (n := 15) (by simp) d.val r.val d.isLt r.isLt]
  simp

/-- A memory whose first 80 bytes read as the font holds every glyph at its place. -/
theorem fontLoaded_of_read {g : Config.Glyphs} {m : Memory} (h : ∀ a, a < 0x50 → m.read a = (font g).getD a 0) :
    FontLoaded g m := by
  refine ⟨?_, fun d r => ?_⟩
  · simp only [List.map_cons, List.map_nil]
    rw [h 0 (by decide), h 1 (by decide), h 2 (by decide), h 3 (by decide), h 4 (by decide)]
    rfl
  · rw [h _ (by omega), font_getD]

/-- A Reset writes the font and leaves every other byte (70_reset_and_hazards.md R203). -/
theorem State.read_reinitialise_mem (s : State) (a : Nat) :
    (s.mem.writeBytes 0 (font s.glyphs)).read a = if a < 0x50 then (font s.glyphs).getD a 0 else s.mem.read a := by
  rw [Memory.read_writeBytes, font_length, Nat.sub_zero]
  by_cases h : a < 80 <;> simp [h]

theorem State.powerOn_mem (g : Config.Glyphs) (init : Config.MemInit) :
    (State.powerOn g init).mem = Memory.writeBytes [] 0 (font g ++ init.toList) := by
  simp only [State.powerOn]

/-- Every other field at power-on is as at reset. -/
theorem State.powerOn_eq (g : Config.Glyphs) (init : Config.MemInit) :
    State.powerOn g init = { State.reset with glyphs := g, mem := (State.powerOn g init).mem } := by
  rw [State.powerOn_mem, State.powerOn]

@[simp] theorem State.powerOn_v (g : Config.Glyphs) (init : Config.MemInit) :
    (State.powerOn g init).v = State.reset.v := by simp only [State.powerOn]
@[simp] theorem State.powerOn_pc (g : Config.Glyphs) (init : Config.MemInit) :
    (State.powerOn g init).pc = State.reset.pc := by simp only [State.powerOn]
@[simp] theorem State.powerOn_i (g : Config.Glyphs) (init : Config.MemInit) :
    (State.powerOn g init).i = State.reset.i := by simp only [State.powerOn]
@[simp] theorem State.powerOn_stack (g : Config.Glyphs) (init : Config.MemInit) :
    (State.powerOn g init).stack = State.reset.stack := by simp only [State.powerOn]
@[simp] theorem State.powerOn_sp (g : Config.Glyphs) (init : Config.MemInit) :
    (State.powerOn g init).sp = State.reset.sp := by simp only [State.powerOn]
@[simp] theorem State.powerOn_dt (g : Config.Glyphs) (init : Config.MemInit) :
    (State.powerOn g init).dt = State.reset.dt := by simp only [State.powerOn]
@[simp] theorem State.powerOn_st (g : Config.Glyphs) (init : Config.MemInit) :
    (State.powerOn g init).st = State.reset.st := by simp only [State.powerOn]
@[simp] theorem State.powerOn_display (g : Config.Glyphs) (init : Config.MemInit) :
    (State.powerOn g init).display = State.reset.display := by simp only [State.powerOn]
@[simp] theorem State.powerOn_keys (g : Config.Glyphs) (init : Config.MemInit) :
    (State.powerOn g init).keys = State.reset.keys := by simp only [State.powerOn]
@[simp] theorem State.powerOn_lastKey (g : Config.Glyphs) (init : Config.MemInit) :
    (State.powerOn g init).lastKey = State.reset.lastKey := by simp only [State.powerOn]
@[simp] theorem State.powerOn_run (g : Config.Glyphs) (init : Config.MemInit) :
    (State.powerOn g init).run = State.reset.run := by simp only [State.powerOn]
@[simp] theorem State.powerOn_wait (g : Config.Glyphs) (init : Config.MemInit) :
    (State.powerOn g init).wait = State.reset.wait := by simp only [State.powerOn]
@[simp] theorem State.powerOn_waitReg (g : Config.Glyphs) (init : Config.MemInit) :
    (State.powerOn g init).waitReg = State.reset.waitReg := by simp only [State.powerOn]
@[simp] theorem State.powerOn_draws (g : Config.Glyphs) (init : Config.MemInit) :
    (State.powerOn g init).draws = State.reset.draws := by simp only [State.powerOn]
@[simp] theorem State.powerOn_pending (g : Config.Glyphs) (init : Config.MemInit) :
    (State.powerOn g init).pending = State.reset.pending := by simp only [State.powerOn]
@[simp] theorem State.powerOn_outputs (g : Config.Glyphs) (init : Config.MemInit) :
    (State.powerOn g init).outputs = State.reset.outputs := by simp only [State.powerOn]
@[simp] theorem State.powerOn_glyphs (g : Config.Glyphs) (init : Config.MemInit) :
    (State.powerOn g init).glyphs = g := by simp only [State.powerOn]
@[simp] theorem State.reg_powerOn (g : Config.Glyphs) (init : Config.MemInit) (r : RegIdx) :
    (State.powerOn g init).reg r = State.reset.reg r := by simp only [State.reg, State.powerOn_v]
@[simp] theorem State.slot_powerOn (g : Config.Glyphs) (init : Config.MemInit) (k : BitVec 4) :
    (State.powerOn g init).slot k = State.reset.slot k := by simp only [State.slot, State.powerOn_stack]
@[simp] theorem State.key_powerOn (g : Config.Glyphs) (init : Config.MemInit) (k : KeyIdx) :
    (State.powerOn g init).key k = State.reset.key k := by simp only [State.key, State.powerOn_keys]
/-- The memory at power-on: the font, then MEM_INIT (70_reset_and_hazards.md R201). -/
theorem State.read_powerOn_mem (g : Config.Glyphs) (init : Config.MemInit) (a : Nat) (ha : a < 4096) :
    (State.powerOn g init).mem.read a = if a < 0x50 then (font g).getD a 0 else init.toList.getD (a - 0x50) 0 := by
  rw [State.powerOn_mem, Memory.read_writeBytes, if_pos ⟨Nat.zero_le _, by simp; omega⟩, Nat.sub_zero]
  by_cases h : a < 0x50
  · rw [if_pos h, List.getD_append _ _ _ _ (by simpa using h)]
  · rw [if_neg h, List.getD_append_right _ _ _ _ (by simpa using h), font_length]

/-- Bytes that unlisted addresses read as anyway are not listed. -/
theorem Memory.writeBytes_nil (a : Nat) (bs : List Byte) (h : ∀ k, k < bs.length → bs.getD k 0 = initialByte (a + k)) :
    Memory.writeBytes [] a bs = [] := by
  induction bs generalizing a with
  | nil => rfl
  | cons b bs ih =>
    have hb : b = initialByte a := by simpa using h 0 (by simp)
    rw [Memory.writeBytes, Memory.write, if_pos hb]
    refine ih (a + 1) (fun k hk => ?_)
    have := h (k + 1) (by simpa using hk)
    rwa [List.getD_cons_succ, Nat.add_comm k 1, ← Nat.add_assoc] at this

@[simp] theorem State.reg_reset (r : RegIdx) : State.reset.reg r = 0 := by simp [State.reg, State.reset]

@[simp] theorem State.slot_reset (k : BitVec 4) : State.reset.slot k = 0 := by simp [State.slot, State.reset]

@[simp] theorem State.key_reset (k : KeyIdx) : State.reset.key k = false := by simp [State.key, State.reset]

@[simp] theorem State.reg_reinitialise (s : State) (r : RegIdx) : s.reinitialise.reg r = 0 := by
  simp only [State.reg, State.reinitialise_v]
  exact State.reg_reset r

@[simp] theorem State.slot_reinitialise (s : State) (k : BitVec 4) : s.reinitialise.slot k = 0 := by
  simp only [State.slot, State.reinitialise_stack]
  exact State.slot_reset k

@[simp] theorem State.key_reinitialise (s : State) (k : KeyIdx) : s.reinitialise.key k = false := by
  simp only [State.key, State.reinitialise_keys]
  exact State.key_reset k

/-! The unrecognized word. -/

@[simp] theorem State.passUnrecognized_v (s : State) (w : Word) : (s.passUnrecognized w).v = s.v := rfl
@[simp] theorem State.passUnrecognized_pc (s : State) (w : Word) : (s.passUnrecognized w).pc = s.pc + 2 := rfl
@[simp] theorem State.passUnrecognized_i (s : State) (w : Word) : (s.passUnrecognized w).i = s.i := rfl
@[simp] theorem State.passUnrecognized_stack (s : State) (w : Word) : (s.passUnrecognized w).stack = s.stack := rfl
@[simp] theorem State.passUnrecognized_sp (s : State) (w : Word) : (s.passUnrecognized w).sp = s.sp := rfl
@[simp] theorem State.passUnrecognized_dt (s : State) (w : Word) : (s.passUnrecognized w).dt = s.dt := rfl
@[simp] theorem State.passUnrecognized_st (s : State) (w : Word) : (s.passUnrecognized w).st = s.st := rfl
@[simp] theorem State.passUnrecognized_mem (s : State) (w : Word) : (s.passUnrecognized w).mem = s.mem := rfl
@[simp] theorem State.passUnrecognized_display (s : State) (w : Word) : (s.passUnrecognized w).display = s.display := rfl
@[simp] theorem State.passUnrecognized_keys (s : State) (w : Word) : (s.passUnrecognized w).keys = s.keys := rfl
@[simp] theorem State.passUnrecognized_lastKey (s : State) (w : Word) : (s.passUnrecognized w).lastKey = s.lastKey := rfl
@[simp] theorem State.passUnrecognized_run (s : State) (w : Word) : (s.passUnrecognized w).run = s.run := rfl
@[simp] theorem State.passUnrecognized_wait (s : State) (w : Word) : (s.passUnrecognized w).wait = s.wait := rfl
@[simp] theorem State.passUnrecognized_waitReg (s : State) (w : Word) : (s.passUnrecognized w).waitReg = s.waitReg := rfl
@[simp] theorem State.passUnrecognized_draws (s : State) (w : Word) : (s.passUnrecognized w).draws = s.draws := rfl
@[simp] theorem State.passUnrecognized_pending (s : State) (w : Word) : (s.passUnrecognized w).pending = s.pending := rfl
@[simp] theorem State.passUnrecognized_outputs (s : State) (w : Word) : (s.passUnrecognized w).outputs = .unrecognized w s.pc :: s.outputs := rfl
@[simp] theorem State.passUnrecognized_glyphs (s : State) (w : Word) : (s.passUnrecognized w).glyphs = s.glyphs := rfl
@[simp] theorem State.reg_passUnrecognized (s : State) (w : Word) (r : RegIdx) :
    (s.passUnrecognized w).reg r = s.reg r := rfl
@[simp] theorem State.slot_passUnrecognized (s : State) (w : Word) (k : BitVec 4) :
    (s.passUnrecognized w).slot k = s.slot k := rfl
@[simp] theorem State.key_passUnrecognized (s : State) (w : Word) (k : KeyIdx) :
    (s.passUnrecognized w).key k = s.key k := rfl

end Sys2Proof.Machine
end

