-- ==== Sys2Proof/Laws/PerInstr.lean ====
section
/-! SUPPORT. Per-instruction laws of the encoding: the word of every instruction lies in the row of the decode table that
opcode_table.json gives its mnemonic (30_encoding.md R64). -/

namespace Sys2Proof.Laws.InRow

/-- The mnemonic of each instruction's row in opcode_table.json. -/
def rowMnemonic : Instr → String
  | .cls _ => "CLS"
  | .ret _ => "RET"
  | .jp _ => "JP_nnn"
  | .call _ => "CALL_nnn"
  | .seImm _ _ => "SE_Vx__kk"
  | .sneImm _ _ => "SNE_Vx__kk"
  | .seReg _ _ _ => "SE_Vx__Vy"
  | .ldImm _ _ => "LD_Vx__kk"
  | .addImm _ _ => "ADD_Vx__kk"
  | .ldReg _ _ => "LD_Vx__Vy"
  | .orReg _ _ => "OR_Vx__Vy"
  | .andReg _ _ => "AND_Vx__Vy"
  | .xorReg _ _ => "XOR_Vx__Vy"
  | .addReg _ _ => "ADD_Vx__Vy"
  | .subReg _ _ => "SUB_Vx__Vy"
  | .shr _ _ => "SHR_Vx"
  | .subnReg _ _ => "SUBN_Vx__Vy"
  | .shl _ _ => "SHL_Vx"
  | .sneReg _ _ _ => "SNE_Vx__Vy"
  | .ldI _ => "LD_I__nnn"
  | .jpV0 _ => "JP_V0__nnn"
  | .rnd _ _ => "RND_Vx__kk"
  | .drw _ _ _ => "DRW_Vx__Vy__n"
  | .skp _ => "SKP_Vx"
  | .sknp _ => "SKNP_Vx"
  | .ldVxDt _ => "LD_Vx__DT"
  | .ldVxK _ => "LD_Vx__K"
  | .ldDtVx _ => "LD_DT__Vx"
  | .ldStVx _ => "LD_ST__Vx"
  | .addI _ => "ADD_I__Vx"
  | .ldF _ => "LD_F__Vx"
  | .ldB _ => "LD_B__Vx"
  | .ldMemVx _ => "LD__I___Vx"
  | .ldVxMem _ => "LD_Vx___I"

/-- The word of `i` selects the row of the decode table with `i`'s mnemonic. -/
def Statement (i : Instr) : Prop := ∃ r ∈ rows, r.mnemonic = rowMnemonic i ∧ r.selects (encode i) = true

theorem cls (ign : Nibble) : Statement (.cls ign) :=
  ⟨rows[0], List.getElem_mem _, rfl, beq_iff_eq.mpr (wordXK_mask_low _ _ _)⟩

theorem ret (ign : Nibble) : Statement (.ret ign) :=
  ⟨rows[1], List.getElem_mem _, rfl, beq_iff_eq.mpr (wordXK_mask_low _ _ _)⟩

theorem jp (nnn : Addr12) : Statement (.jp nnn) :=
  ⟨rows[2], List.getElem_mem _, rfl, beq_iff_eq.mpr (wordA_mask _ _)⟩

theorem call (nnn : Addr12) : Statement (.call nnn) :=
  ⟨rows[3], List.getElem_mem _, rfl, beq_iff_eq.mpr (wordA_mask _ _)⟩

theorem seImm (x : RegIdx) (kk : Byte) : Statement (.seImm x kk) :=
  ⟨rows[4], List.getElem_mem _, rfl, beq_iff_eq.mpr (wordXK_mask _ _ _)⟩

theorem sneImm (x : RegIdx) (kk : Byte) : Statement (.sneImm x kk) :=
  ⟨rows[5], List.getElem_mem _, rfl, beq_iff_eq.mpr (wordXK_mask _ _ _)⟩

theorem seReg (x : RegIdx) (y : RegIdx) (ign : Nibble) : Statement (.seReg x y ign) :=
  ⟨rows[6], List.getElem_mem _, rfl, beq_iff_eq.mpr (wordXYN_mask _ _ _ _)⟩

theorem ldImm (x : RegIdx) (kk : Byte) : Statement (.ldImm x kk) :=
  ⟨rows[7], List.getElem_mem _, rfl, beq_iff_eq.mpr (wordXK_mask _ _ _)⟩

theorem addImm (x : RegIdx) (kk : Byte) : Statement (.addImm x kk) :=
  ⟨rows[8], List.getElem_mem _, rfl, beq_iff_eq.mpr (wordXK_mask _ _ _)⟩

theorem ldReg (x : RegIdx) (y : RegIdx) : Statement (.ldReg x y) :=
  ⟨rows[9], List.getElem_mem _, rfl, beq_iff_eq.mpr (wordXYN_mask_low _ _ _ _)⟩

theorem orReg (x : RegIdx) (y : RegIdx) : Statement (.orReg x y) :=
  ⟨rows[10], List.getElem_mem _, rfl, beq_iff_eq.mpr (wordXYN_mask_low _ _ _ _)⟩

theorem andReg (x : RegIdx) (y : RegIdx) : Statement (.andReg x y) :=
  ⟨rows[11], List.getElem_mem _, rfl, beq_iff_eq.mpr (wordXYN_mask_low _ _ _ _)⟩

theorem xorReg (x : RegIdx) (y : RegIdx) : Statement (.xorReg x y) :=
  ⟨rows[12], List.getElem_mem _, rfl, beq_iff_eq.mpr (wordXYN_mask_low _ _ _ _)⟩

theorem addReg (x : RegIdx) (y : RegIdx) : Statement (.addReg x y) :=
  ⟨rows[13], List.getElem_mem _, rfl, beq_iff_eq.mpr (wordXYN_mask_low _ _ _ _)⟩

theorem subReg (x : RegIdx) (y : RegIdx) : Statement (.subReg x y) :=
  ⟨rows[14], List.getElem_mem _, rfl, beq_iff_eq.mpr (wordXYN_mask_low _ _ _ _)⟩

theorem shr (x : RegIdx) (y : RegIdx) : Statement (.shr x y) :=
  ⟨rows[15], List.getElem_mem _, rfl, beq_iff_eq.mpr (wordXYN_mask_low _ _ _ _)⟩

theorem subnReg (x : RegIdx) (y : RegIdx) : Statement (.subnReg x y) :=
  ⟨rows[16], List.getElem_mem _, rfl, beq_iff_eq.mpr (wordXYN_mask_low _ _ _ _)⟩

theorem shl (x : RegIdx) (y : RegIdx) : Statement (.shl x y) :=
  ⟨rows[17], List.getElem_mem _, rfl, beq_iff_eq.mpr (wordXYN_mask_low _ _ _ _)⟩

theorem sneReg (x : RegIdx) (y : RegIdx) (ign : Nibble) : Statement (.sneReg x y ign) :=
  ⟨rows[18], List.getElem_mem _, rfl, beq_iff_eq.mpr (wordXYN_mask _ _ _ _)⟩

theorem ldI (nnn : Addr12) : Statement (.ldI nnn) :=
  ⟨rows[19], List.getElem_mem _, rfl, beq_iff_eq.mpr (wordA_mask _ _)⟩

theorem jpV0 (nnn : Addr12) : Statement (.jpV0 nnn) :=
  ⟨rows[20], List.getElem_mem _, rfl, beq_iff_eq.mpr (wordA_mask _ _)⟩

theorem rnd (x : RegIdx) (kk : Byte) : Statement (.rnd x kk) :=
  ⟨rows[21], List.getElem_mem _, rfl, beq_iff_eq.mpr (wordXK_mask _ _ _)⟩

theorem drw (x : RegIdx) (y : RegIdx) (n : Nibble) : Statement (.drw x y n) :=
  ⟨rows[22], List.getElem_mem _, rfl, beq_iff_eq.mpr (wordXYN_mask _ _ _ _)⟩

theorem skp (x : RegIdx) : Statement (.skp x) :=
  ⟨rows[23], List.getElem_mem _, rfl, beq_iff_eq.mpr (wordXK_mask_low _ _ _)⟩

theorem sknp (x : RegIdx) : Statement (.sknp x) :=
  ⟨rows[24], List.getElem_mem _, rfl, beq_iff_eq.mpr (wordXK_mask_low _ _ _)⟩

theorem ldVxDt (x : RegIdx) : Statement (.ldVxDt x) :=
  ⟨rows[25], List.getElem_mem _, rfl, beq_iff_eq.mpr (wordXK_mask_low _ _ _)⟩

theorem ldVxK (x : RegIdx) : Statement (.ldVxK x) :=
  ⟨rows[26], List.getElem_mem _, rfl, beq_iff_eq.mpr (wordXK_mask_low _ _ _)⟩

theorem ldDtVx (x : RegIdx) : Statement (.ldDtVx x) :=
  ⟨rows[27], List.getElem_mem _, rfl, beq_iff_eq.mpr (wordXK_mask_low _ _ _)⟩

theorem ldStVx (x : RegIdx) : Statement (.ldStVx x) :=
  ⟨rows[28], List.getElem_mem _, rfl, beq_iff_eq.mpr (wordXK_mask_low _ _ _)⟩

theorem addI (x : RegIdx) : Statement (.addI x) :=
  ⟨rows[29], List.getElem_mem _, rfl, beq_iff_eq.mpr (wordXK_mask_low _ _ _)⟩

theorem ldF (x : RegIdx) : Statement (.ldF x) :=
  ⟨rows[30], List.getElem_mem _, rfl, beq_iff_eq.mpr (wordXK_mask_low _ _ _)⟩

theorem ldB (x : RegIdx) : Statement (.ldB x) :=
  ⟨rows[31], List.getElem_mem _, rfl, beq_iff_eq.mpr (wordXK_mask_low _ _ _)⟩

theorem ldMemVx (x : RegIdx) : Statement (.ldMemVx x) :=
  ⟨rows[32], List.getElem_mem _, rfl, beq_iff_eq.mpr (wordXK_mask_low _ _ _)⟩

theorem ldVxMem (x : RegIdx) : Statement (.ldVxMem x) :=
  ⟨rows[33], List.getElem_mem _, rfl, beq_iff_eq.mpr (wordXK_mask_low _ _ _)⟩

end Sys2Proof.Laws.InRow
end

