-- ==== Sys2Proof/Tests/Slice0.lean ====
section
/-! SUPPORT. The model's own tests: decoding, one step per instruction, the events, the refusals of the well-formedness
check, and a witness for every statement with hypotheses. Every expected value is from the spec: vectors W, T and programs P
of 95_test_vectors.md, the patterns of 30_encoding.md R64, or an instruction rule's own example. -/

namespace Sys2Proof.Tests

open Sys2Proof.Machine

/-- What a field of the next state holds; nothing where there is no next state. -/
def look {α : Type} (f : State → α) : Host.Outcome State Fault Refusal → Option α
  | .next t => some (f t)
  | .fault _ => none
  | .refused _ => none

/-- Runs the instruction of word `w` at PC. -/
def runWord (w : Nat) (s : State) : Host.Outcome State Fault Refusal := step (s.withFetchWord 16 w)

/-- The reset machine, Running. -/
def s0 : State := { State.reset with run := true }

/-- `s0` with V1 and V2 set. -/
def s12 (a b : Byte) : State := (s0.setReg 1 a).setReg 2 b

/-- Some pixels of a display, row and column. -/
def pixels (d : Display) (ps : List Pixel) : List Bool := ps.map d.get

/-- `s0` with a run of bytes in memory and I at its start. -/
def sData (a : Nat) (bs : List Byte) : State := { s0 with i := BitVec.ofNat 16 a, mem := s0.mem.writeBytes a bs }

/-! Well-formedness: one ill-formed term per check (30_encoding.md R69). -/

theorem test_illformed_cls : Instr.wellFormed (.cls 0xA) = false := by decide
theorem test_illformed_ret : Instr.wellFormed (.ret 0xF) = false := by decide
theorem test_illformed_seReg : Instr.wellFormed (.seReg 1 2 0xF) = false := by decide
theorem test_illformed_sneReg : Instr.wellFormed (.sneReg 0xA 0xB 7) = false := by decide
theorem test_illformed_shr : Instr.wellFormed (.shr 1 2) = false := by decide
theorem test_illformed_shl : Instr.wellFormed (.shl 1 2) = false := by decide

/-! Decoding: words written out from the patterns of R64 (vectors T-D1 to T-D25). -/

theorem test_decode_flow :
    decodeWord 0x00E0 = .instr (.cls 0) ∧ decodeWord 0x00EE = .instr (.ret 0) ∧
    decodeWord 0x0AE0 = .instr (.cls 0xA) ∧ decodeWord 0x0FEE = .instr (.ret 0xF) ∧
    decodeWord 0x1ABC = .instr (.jp 0xABC) ∧ decodeWord 0x2F00 = .instr (.call 0xF00) ∧
    decodeWord 0x3A7F = .instr (.seImm 0xA 0x7F) ∧ decodeWord 0x4B00 = .instr (.sneImm 0xB 0x00) ∧
    decodeWord 0x5120 = .instr (.seReg 1 2 0) ∧ decodeWord 0x512F = .instr (.seReg 1 2 0xF) ∧
    decodeWord 0x9AB0 = .instr (.sneReg 0xA 0xB 0) ∧ decodeWord 0x9AB7 = .instr (.sneReg 0xA 0xB 7) ∧
    decodeWord 0xB300 = .instr (.jpV0 0x300) := by
  (repeat' apply And.intro) <;> rfl

theorem test_decode_alu :
    decodeWord 0x6C33 = .instr (.ldImm 0xC 0x33) ∧ decodeWord 0x7DFF = .instr (.addImm 0xD 0xFF) ∧
    decodeWord 0x8120 = .instr (.ldReg 1 2) ∧ decodeWord 0x8121 = .instr (.orReg 1 2) ∧
    decodeWord 0x8122 = .instr (.andReg 1 2) ∧ decodeWord 0x8123 = .instr (.xorReg 1 2) ∧
    decodeWord 0x8124 = .instr (.addReg 1 2) ∧ decodeWord 0x8125 = .instr (.subReg 1 2) ∧
    decodeWord 0x8126 = .instr (.shr 1 2) ∧ decodeWord 0x8127 = .instr (.subnReg 1 2) ∧
    decodeWord 0x812E = .instr (.shl 1 2) ∧ decodeWord 0xC30F = .instr (.rnd 3 0x0F) := by
  (repeat' apply And.intro) <;> rfl

theorem test_decode_display_keys :
    decodeWord 0xD125 = .instr (.drw 1 2 5) ∧ decodeWord 0xD120 = .instr (.drw 1 2 0) ∧
    decodeWord 0xE29E = .instr (.skp 2) ∧ decodeWord 0xE2A1 = .instr (.sknp 2) := by
  (repeat' apply And.intro) <;> rfl

theorem test_decode_family_f :
    decodeWord 0xA123 = .instr (.ldI 0x123) ∧
    decodeWord 0xF107 = .instr (.ldVxDt 1) ∧ decodeWord 0xF10A = .instr (.ldVxK 1) ∧
    decodeWord 0xF115 = .instr (.ldDtVx 1) ∧ decodeWord 0xF118 = .instr (.ldStVx 1) ∧
    decodeWord 0xF11E = .instr (.addI 1) ∧ decodeWord 0xF129 = .instr (.ldF 1) ∧
    decodeWord 0xF133 = .instr (.ldB 1) ∧ decodeWord 0xF155 = .instr (.ldMemVx 1) ∧
    decodeWord 0xF165 = .instr (.ldVxMem 1) := by
  (repeat' apply And.intro) <;> rfl

theorem test_decode_unrecognized :
    ([0x0000, 0x00E1, 0x00EF, 0x00FE, 0x0123, 0x8128, 0x8129, 0x812A, 0x812B, 0x812C, 0x812D, 0x812F, 0xE200, 0xE29F,
      0xE2A0, 0xE2FF, 0xF100, 0xF101, 0xF130, 0xF175, 0xF185, 0xF1FF] : List Word).all
      (fun w => decide (decodeWord w = .unrecognized w)) = true := by rfl

theorem test_decode_bytes_big_endian :
    decodeBytes [0x12, 0x34, 0x56] = .instr (.jp 0x234) [0x56] ∧ decodeBytes [0x12] = .truncated [0x12] ∧
    decodeTableWord 16 0x1234 = some (.jp 0x234) := by decide +kernel

/-! Fetch and advance (T-C2 to T-C8). -/

theorem test_fetch_and_advance :
    -- fetch odd pc
    (look (fun t => (t.reg 1, t.pc)) (runWord 0x6107 { s0 with pc := 0x0201 }) = some (0x07, 0x0203)) ∧
    -- fetch wraps memory
    (look (fun t => (t.reg 0xA, t.pc))
      (step { s0 with pc := 0x0FFF, mem := [(0xFFF, 0x6A)] }) = some (0xF0, 0x1001)) ∧
    -- unrecognized reports
    (look (fun t => (t.pc, t.outputs))
      (step { s0 with pc := 0xFFFF }) = some (0x0001, [.unrecognized 0x00F0 0xFFFF])) ∧
    -- stopped does nothing
    (look id (step State.reset) = some State.reset) := by
  decide +kernel

/-! Control transfer (T-F1 to T-F21). -/

theorem test_control_transfer :
    -- jp
    (look (fun t => t.pc) (runWord 0x1ABC s0) = some 0x0ABC) ∧
    -- call
    (look (fun t => (t.slot 0, t.sp, t.pc)) (runWord 0x220A { s0 with pc := 0x0204 }) = some (0x0206, 1, 0x020A)) ∧
    -- call full stack
    (look (fun t => (t.slot 15, t.sp, t.pc))
      (runWord 0x2500 { s0 with pc := 0x0400, sp := 15 }) = some (0x0402, 15, 0x0500)) ∧
    -- ret
    (look (fun t => (t.slot 0, t.sp, t.pc))
      (runWord 0x00EE { s0 with pc := 0x020C, sp := 1, stack := s0.stack.set 0 0x0206 }) = some (0x0206, 0, 0x0206)) ∧
    -- ret empty stack
    (look (fun t => (t.sp, t.pc)) (runWord 0x00EE s0) = some (0, 0x0000)) ∧
    -- seImm taken
    (look (fun t => t.pc) (runWord 0x3300 { s0 with pc := 0x0208 }) = some 0x020C) := by
  decide +kernel

theorem test_skips_and_indexed_jump :
    -- seImm wraps
    (look (fun t => t.pc) (runWord 0x3000 { s0 with pc := 0xFFFE }) = some 0x0002) ∧
    -- sneImm not taken
    (look (fun t => t.pc) (runWord 0x4300 { s0 with pc := 0x0208 }) = some 0x020A) ∧
    -- seReg
    (look (fun t => t.pc) (runWord 0x5120 (s12 0x7F 0x7E)) = some 0x0202) ∧
    -- seReg same
    (look (fun t => t.pc) (runWord 0x5330 s0) = some 0x0204) ∧
    -- sneReg
    (look (fun t => t.pc) (runWord 0x9120 (s12 1 2)) = some 0x0204) ∧
    -- jpV0
    (look (fun t => t.pc) (runWord 0xBFFF (s0.setReg 0 0xFF)) = some 0x10FE) := by
  decide +kernel

/-! The ALU (T-A1 to T-A40). -/

theorem test_loads_and_logic :
    -- ldImm
    (look (fun t => t.reg 0xA) (runWord 0x6A7F s0) = some 0x7F) ∧
    -- addImm wraps
    (look (fun t => (t.reg 1, t.reg 0xF)) (runWord 0x7102 (s12 0xFF 0)) = some (0x01, 0)) ∧
    -- ldReg
    (look (fun t => t.reg 0xA) (runWord 0x8AF0 (s0.setReg 0xF 1)) = some 1) ∧
    -- or
    (look (fun t => (t.reg 1, t.reg 0xF)) (runWord 0x8121 ((s12 0xF0 0x0F).setReg 0xF 1)) = some (0xFF, 1)) ∧
    -- and
    (look (fun t => (t.reg 1, t.reg 0xF)) (runWord 0x8122 ((s12 0xF0 0x3C).setReg 0xF 1)) = some (0x30, 1)) ∧
    -- xor
    (look (fun t => (t.reg 1, t.reg 0xF)) (runWord 0x8123 ((s12 0xFF 0x0F).setReg 0xF 1)) = some (0xF0, 1)) ∧
    -- add wraps
    (look (fun t => (t.reg 1, t.reg 0xF)) (runWord 0x8124 (s12 0xFF 0x01)) = some (0x00, 1)) ∧
    -- add sum 255
    (look (fun t => (t.reg 1, t.reg 0xF)) (runWord 0x8124 (s12 0x80 0x7F)) = some (0xFF, 0)) := by
  decide +kernel

theorem test_arithmetic_and_flags :
    -- sub equal
    (look (fun t => (t.reg 1, t.reg 0xF)) (runWord 0x8125 (s12 5 5)) = some (0x00, 0)) ∧
    -- sub into flag
    (look (fun t => t.reg 0xF) (runWord 0x8F15 ((s12 4 0).setReg 0xF 9)) = some 1) ∧
    -- shr
    (look (fun t => (t.reg 1, t.reg 0xF, t.reg 2)) (runWord 0x8126 (s12 0x05 0xEE)) = some (0x02, 1, 0xEE)) ∧
    -- shr flag register
    (look (fun t => t.reg 0xF) (runWord 0x8F06 (s0.setReg 0xF 0x02)) = some 0) ∧
    -- subn
    (look (fun t => (t.reg 1, t.reg 0xF)) (runWord 0x8127 (s12 0x03 0x0A)) = some (0x07, 1)) ∧
    -- subn wraps
    (look (fun t => (t.reg 1, t.reg 0xF)) (runWord 0x8127 (s12 0x0A 0x03)) = some (0xF9, 0)) ∧
    -- shl
    (look (fun t => (t.reg 1, t.reg 0xF, t.reg 2)) (runWord 0x812E (s12 0x81 0xEE)) = some (0x02, 1, 0xEE)) ∧
    -- rnd mask zero
    (look (fun t => t.pc) (runWord 0xC300 s0) = some 0x0202) := by
  decide +kernel

/-! I and memory (T-M1 to T-M22). -/

theorem test_index_register :
    -- ldI
    (look (fun t => t.i) (runWord 0xA300 { s0 with i := 0xFFFF }) = some 0x0300) ∧
    -- addI
    (look (fun t => (t.i, t.reg 0xF)) (runWord 0xF21E { s12 0 1 with i := 0x0FFF }) = some (0x1000, 0)) ∧
    -- ldF
    (look (fun t => t.i) (runWord 0xFA29 (s0.setReg 0xA 0x0A)) = some 0x0032) ∧
    -- ldF clamps
    (look (fun t => t.i) (runWord 0xF129 (s12 0x12 0)) = some 0x004B) ∧
    -- ldB
    (look (fun t => ([0x300, 0x301, 0x302].map t.memRead, t.i))
      (runWord 0xF033 { s0.setReg 0 0xEA with i := 0x0300 }) = some ([2, 3, 4], 0x0300)) := by
  decide +kernel

theorem test_memory_instructions :
    -- ldB wraps
    (look (fun t => [0xFFE, 0xFFF, 0x000].map t.memRead)
      (runWord 0xF033 { s0.setReg 0 0x7B with i := 0x0FFE }) = some [1, 2, 3]) ∧
    -- store regs
    (look (fun t => ([0x400, 0x401, 0x402, 0x403].map t.memRead, t.i))
      (runWord 0xF255 { (s12 0x22 0x33).setReg 0 0x11 with i := 0x0400 }) = some ([0x11, 0x22, 0x33, 0], 0x0400)) ∧
    -- load regs
    (look (fun t => ([0, 1, 2, 3].map t.reg, t.i))
      (runWord 0xF265 ((sData 0x300 [2, 3, 4]).setReg 3 0x77)) = some ([2, 3, 4, 0x77], 0x0300)) ∧
    -- load regs wraps
    (look (fun t => t.reg 0) (runWord 0xF065 { sData 0x300 [0x5A] with i := 0x1300 }) = some 0x5A) := by
  decide +kernel

/-! The display (T-V1 to T-V12). -/

theorem test_display :
    -- cls
    (look (fun t => (pixels t.display [(3, 4)], t.reg 0xF, t.pc))
      (runWord 0x00E0 { s0.setReg 0xF 1 with display := s0.display.invert (3, 4) }) = some ([false], 1, 0x0202)) ∧
    -- drw wraps
    (look (fun t => (pixels t.display [(0, 62), (0, 63), (0, 0), (0, 6), (0, 7), (1, 0)], t.reg 0xF))
      (runWord 0xD011 ((sData 0x300 [0xFF]).setReg 0 0x3F)) = some ([false, true, true, true, false, false], 0)) ∧
    -- drw collision
    (look (fun t => (pixels t.display [(0, 0)], t.reg 0xF))
      (runWord 0xD011 { sData 0x300 [0x80] with display := s0.display.invert (0, 0) }) = some ([false], 1)) := by
  decide +kernel

/-! Keys and timers (T-K1 to T-K20). -/

theorem test_keys :
    -- skp low bits
    (look (fun t => t.pc) (runWord 0xE29E ((s12 0 0x15).setKeyBit 5 true)) = some 0x0204) ∧
    -- skp not pressed
    (look (fun t => t.pc) (runWord 0xE29E (s12 0 0x05)) = some 0x0202) ∧
    -- sknp
    (look (fun t => t.pc) (runWord 0xE2A1 (s12 0 0x05)) = some 0x0204) ∧
    -- ldVxDt
    (look (fun t => (t.reg 4, t.dt)) (runWord 0xF407 { s0 with dt := 5 }) = some (5, 5)) ∧
    -- ldVxK enters wait
    (look (fun t => (t.wait, t.waitReg, t.pc, t.reg 3)) (runWord 0xF30A s0) = some (true, 3, 0x0202, 0)) := by
  decide +kernel

theorem test_timers_and_key_wait :
    -- ldDtVx
    (look (fun t => t.dt) (runWord 0xF315 (s0.setReg 3 7)) = some 7) ∧
    -- ldStVx
    (look (fun t => t.st) (runWord 0xF018 (s0.setReg 0 0x3C)) = some 0x3C) ∧
    -- poll resolves
    (look (fun t => (t.reg 3, t.wait, t.lastKey, t.pc))
      (step { s0 with wait := true, waitReg := 3, lastKey := some 7, pc := 0x0202 })
        = some (7, false, none, 0x0202)) ∧
    -- poll idle
    (look id (step { s0 with wait := true, waitReg := 3 }) = some { s0 with wait := true, waitReg := 3 }) := by
  decide +kernel

/-! The font (20_memory.md R42). -/

/-- A font with a glyph 1 of five lit rows, and no other glyph lit. -/
def otherGlyphs : Config.Glyphs := (Vector.replicate 15 (Vector.replicate 5 0)).set 0 (Vector.replicate 5 0xF0)

theorem test_font :
    -- the default: glyph 1, glyph 8, glyph F
    ([0x005, 0x006, 0x028, 0x029, 0x04B, 0x04F].map State.reset.memRead = [0x20, 0x60, 0xF0, 0x90, 0xF0, 0x80]) ∧
    -- reset reloads this machine's font
    (look (fun t => [0x000, 0x001, 0x005, 0x009, 0x00A, 0x04F].map t.memRead)
      (step { State.reset with glyphs := otherGlyphs, mem := [(0x001, 7)], pending := [.reset] }) =
        some [0xF0, 0x90, 0xF0, 0xF0, 0x00, 0x00]) := by
  decide +kernel

/-! The other events (T-K, T-L). -/

theorem test_events :
    -- timerTick
    (look (fun t => (t.dt, t.st)) (step { s0 with dt := 0xFF, st := 0, pending := [.timerTick] }) = some (0xFE, 0)) ∧
    -- setKey press
    (look (fun t => (t.key 7, t.lastKey)) (step { s0 with pending := [.setKey 7 true] }) = some (true, some 7)) ∧
    -- setKey held
    (look (fun t => (t.key 2, t.lastKey))
      (step { s0.setKeyBit 2 true with pending := [.setKey 2 true] }) = some (true, none)) ∧
    -- load
    (look (fun t => ([0x1FF, 0x200, 0x201, 0x202].map t.memRead, t.pc, t.outputs))
      (step { State.reset with mem := [(0x1FF, 9), (0x202, 9)], pending := [.load [0x12, 0x34]] })
        = some ([9, 0x12, 0x34, 0], 0x0200, [.loadResult true])) ∧
    -- load empty fails
    (look (fun t => t.outputs) (step { State.reset with pending := [.load []] }) = some [.loadResult false]) := by
  decide +kernel

theorem test_host_events :
    -- reset keeps program
    (look (fun t => (t.reg 1, t.pc, [0x000, 0x200].map t.memRead))
      (step { State.reset.setReg 1 5 with pc := 0x300, mem := [(0x000, 3), (0x200, 0x12)], pending := [.reset] })
        = some (0, 0x0200, [0xF0, 0x12])) ∧
    -- reset ignored running
    (look (fun t => t.reg 1) (step { s12 5 0 with pending := [.reset] }) = some 5) ∧
    -- start stop
    (look (fun t => t.run)
      (step { State.reset with pending := [.start] }) = some true ∧
      look (fun t => t.run) (step { s0 with pending := [.stop] })
        = some false) ∧
    -- snapshot
    (look (fun t => t.outputs) (step { s0 with pending := [.snapshot] }) = some [.snapshot blankDisplay]) := by
  decide +kernel

/-! Witnesses: for every statement with hypotheses, a concrete state and operands that meet all of them together, for each of
its clauses and at the boundary values. -/

/-- `s0` with a word at PC. -/
def sWord (hi lo : Byte) : State := { s0 with mem := s0.mem.writeBytes 0x200 [hi, lo] }

theorem witness_EncodeOfDecodeIsTheWord : decodeWord 0x512F = .instr (.seReg 1 2 0xF) := by rfl

theorem witness_FamilyEIsDispatchedOnItsLowByte :
    (0xE29E : Word).extractLsb' 12 4 = 0xE ∧ (0xE29E : Word).extractLsb' 0 8 = 0x9E ∧
    (0xE2A1 : Word).extractLsb' 12 4 = 0xE ∧ (0xE2A1 : Word).extractLsb' 0 8 = 0xA1 ∧
    (0xE2FF : Word).extractLsb' 12 4 = 0xE := by decide

theorem witness_UnrecognizedWordsAreExactlyThese :
    decodeWord 0x0123 = .unrecognized 0x0123 ∧ decodeWord 0x812F = .unrecognized 0x812F ∧
    decodeWord 0xE200 = .unrecognized 0xE200 ∧ decodeWord 0xF1FF = .unrecognized 0xF1FF := ⟨rfl, rfl, rfl, rfl⟩

theorem witness_ResetClearsEveryRegister :
    (({ State.reset with pending := [.reset] } : State).pending = .reset :: []) ∧
    ({ State.reset with pending := [.reset] } : State).run = false := ⟨rfl, rfl⟩

theorem witness_ResetReinitialisesEverythingButProgramMemory :
    (({ State.reset with mem := [(0x4F, 1), (0x50, 1)], pending := [.reset, .start] } : State).pending =
      .reset :: [.start]) ∧
    ({ State.reset with mem := [(0x4F, 1), (0x50, 1)], pending := [.reset, .start] } : State).run = false := ⟨rfl, rfl⟩

theorem witness_ResetIsIgnoredWhileRunning :
    ({ s0 with pending := [.reset] } : State).pending = .reset :: [] ∧
    ({ s0 with pending := [.reset] } : State).run = true := ⟨rfl, rfl⟩

theorem witness_StartStopAndSnapshot :
    ({ s0 with pending := [.start] } : State).pending = .start :: [] ∧
    ({ s0 with pending := [.stop] } : State).pending = .stop :: [] ∧
    ({ s0 with pending := [.snapshot] } : State).pending = .snapshot :: [] := ⟨rfl, rfl, rfl⟩

theorem witness_TimerTickCountsDownToZero :
    (({ s0 with dt := 1, st := 0, pending := [.timerTick] } : State).pending = .timerTick :: [] ∧ s0.run = true) ∧
    (({ State.reset with pending := [.timerTick] } : State).pending = .timerTick :: [] ∧ State.reset.run = false) :=
  ⟨⟨rfl, rfl⟩, ⟨rfl, rfl⟩⟩

theorem witness_SetKeyLatchesAndRecordsPresses :
    (({ s0 with pending := [.setKey 0xF true] } : State).pending = .setKey 0xF true :: [] ∧ s0.key 0xF = false) ∧
    (({ s0.setKeyBit 0 true with pending := [.setKey 0 true] } : State).pending = .setKey 0 true :: [] ∧
      (s0.setKeyBit 0 true).key 0 = true) ∧
    ({ s0 with pending := [.setKey 3 false] } : State).pending = .setKey 3 false :: [] := by decide

theorem witness_LoadFillsTheProgramRegionOrFails :
    (({ State.reset with pending := [.load [0x12]] } : State).pending = .load [0x12] :: [] ∧ State.reset.run = false) ∧
    (0 < (List.replicate 3584 (0 : Byte)).length ∧ (List.replicate 3584 (0 : Byte)).length ≤ 3584) ∧
    (({ s0 with pending := [.load [0x12]] } : State).pending = .load [0x12] :: [] ∧
      ¬ (s0.run = false ∧ 0 < [0x12].length ∧ [0x12].length ≤ 3584)) ∧
    ¬ (0 < ([] : List Byte).length) ∧ ¬ ((List.replicate 3585 (0 : Byte)).length ≤ 3584) := by
  refine ⟨⟨rfl, rfl⟩, ?_, ⟨rfl, by decide⟩, by decide, ?_⟩ <;> rw [List.length_replicate] <;> omega

theorem witness_InstrTickIsOneInstructionCycle :
    (State.reset.nextEvent = .instrTick ∧ State.reset.run = false) ∧
    (({ s0 with wait := true } : State).nextEvent = .instrTick ∧ s0.run = true) ∧
    (s0.nextEvent = .instrTick ∧ s0.run = true ∧ s0.wait = false) ∧
    ({ s0 with pending := [.instrTick, .stop] } : State).nextEvent = .instrTick := by decide

theorem witness_StepRunsTheDecodedInstruction :
    ((sWord 0x12 0x34).nextEvent = .instrTick ∧ (sWord 0x12 0x34).run = true ∧ (sWord 0x12 0x34).wait = false ∧
      (0x1234 : Word).toNat = ((sWord 0x12 0x34).mem.read (0x200 % 4096)).toNat * 256 +
        ((sWord 0x12 0x34).mem.read ((0x200 + 1) % 4096)).toNat ∧ decodeWord 0x1234 = .instr (.jp 0x234)) ∧
    (0x6AF0 : Word).toNat = (Memory.read [(0xFFF, 0x6A)] (0xFFFF % 4096)).toNat * 256 +
      (Memory.read [(0xFFF, 0x6A)] ((0xFFFF + 1) % 4096)).toNat := by decide +kernel

theorem witness_UnrecognizedWordIsATwoByteNoOp :
    s0.nextEvent = .instrTick ∧ s0.run = true ∧ s0.wait = false ∧ decodeWord s0.fetch16 = .unrecognized 0x0000 := by
  decide +kernel

theorem witness_PollStoresTheKeyAndEndsTheWait :
    (({ s0 with wait := true } : State).nextEvent = .instrTick ∧ s0.run = true ∧ s0.lastKey = none) ∧
    ({ s0 with wait := true, waitReg := 0xF, lastKey := some 0xF } : State).nextEvent = .instrTick ∧
    ({ s0 with wait := true, waitReg := 0xF, lastKey := some 0xF } : State).lastKey = some 0xF := by decide

theorem witness_a_result_register_other_than_VF : (0xE : RegIdx) ≠ 0xF ∧ (0 : RegIdx) ≠ 0xF := by decide

theorem witness_StoreAndLoadRegisters :
    (0 : RegIdx).toNat ≤ (0 : RegIdx).toNat ∧ (0xF : RegIdx).toNat ≤ (0xF : RegIdx).toNat ∧
    (0 : RegIdx).toNat ≤ (0xF : RegIdx).toNat := by decide

theorem witness_DrawSpriteIsPixelwiseXor :
    (List.replicate 15 (0xFF : Byte)).length ≤ 15 ∧ ([] : List Byte).length ≤ 15 := by decide

theorem witness_DrawingTwiceRestoresTheDisplay :
    [0x80].length ≤ 15 ∧ ∃ b ∈ ([0x80] : List Byte), b ≠ 0 := by decide

/-- A sprite byte 0x80 at (255, 255) hits the pixel (31, 63), which the first display has lit and the second not. -/
theorem witness_DrwDrawsTheSpriteAtI :
    SpriteCollides (blankDisplay.invert (31, 63)) 0xFF 0xFF (fun _ => 0x80) 1 ∧
    ¬ SpriteCollides blankDisplay 0xFF 0xFF (fun _ => 0x80) 1 :=
  ⟨⟨(31, 63), ⟨0, 0, by decide, by decide, by decide, by decide, by decide⟩, by decide +kernel⟩,
    fun ⟨p, _, h⟩ => by simp at h⟩

/-- A register instruction; an accepted Reset of a lit display; a CLS of a lit display. -/
theorem witness_OnlyClsAndDrwTouchTheDisplay :
    ((∀ ign, Instr.jp 0x200 ≠ .cls ign) ∧ (∀ x y n, Instr.jp 0x200 ≠ .drw x y n) ∧
      exec (.jp 0x200) s0 = .next (s0.setPc (absAddr 0x200))) ∧
    look (fun t => t.display.get (3, 4))
      (step { State.reset with display := blankDisplay.invert (3, 4), pending := [.reset] }) = some false ∧
    look (fun t => t.display.get (3, 4))
      (step { sWord 0x00 0xE0 with display := blankDisplay.invert (3, 4) }) = some false ∧
    (blankDisplay.invert (3, 4)).get (3, 4) = true := by
  refine ⟨⟨fun _ => nofun, fun _ _ _ => nofun, rfl⟩, ?_⟩
  decide +kernel

theorem witness_LdVxKCompletesInTwoTicks :
    let s := { sWord 0xF3 0x0A with lastKey := some 7 }
    s.pending = [] ∧ s.run = true ∧ s.wait = false ∧ decodeWord s.fetch16 = .instr (.ldVxK 3) ∧ s.lastKey = some 7 := by
  decide +kernel

theorem witness_KeyWaitLastsUntilAPress :
    let s := { s0 with wait := true }
    let q : List Event := [.timerTick, .instrTick, .setKey 0xF false, .stop, .load [0x12], .start, .snapshot]
    (s.pending = [] ∧ s.run = true ∧ s.wait = true ∧ s.lastKey = none) ∧
    ({ s with pending := q }.wait = true ∧ { s with pending := q }.lastKey = none ∧
      ∀ e ∈ q, e ≠ .reset ∧ ∀ k, e ≠ .setKey k true) := by decide

theorem witness_EveryStepKeepsMemoryCanonical :
    MemoryCanonical State.reset ∧ MemoryCanonical (sWord 0x12 0x00) ∧
    step State.reset = .next State.reset := ⟨by decide, by decide, rfl⟩

theorem witness_EveryOtherInstructionAdvances :
    (setsOwnPc (.ldVxK 3) = false ∧ ¬ skipTaken s0 (.ldVxK 3)) ∧
    (setsOwnPc (.seImm 1 0) = false ∧ skipTaken s0 (.seImm 1 0)) ∧
    (setsOwnPc (.sneReg 1 2 0) = false ∧ ¬ skipTaken s0 (.sneReg 1 2 0)) ∧
    (setsOwnPc (.skp 1) = false ∧ skipTaken (s0.setKeyBit 0 true) (.skp 1)) ∧
    (setsOwnPc (.sknp 1) = false ∧ skipTaken s0 (.sknp 1)) :=
  ⟨⟨rfl, id⟩, ⟨rfl, rfl⟩, ⟨rfl, fun h => h rfl⟩, ⟨rfl, rfl⟩, ⟨rfl, rfl⟩⟩

/-- A Load may change only 0x200..0xFFF and the outputs, so not V1 nor the byte at 0x1FF. -/
theorem witness_EachEventChangesOnlyItsOwnState :
    let s := { State.reset with pending := [.load [0x12]] }
    MemoryCanonical s ∧ (∃ t, step s = .next t) ∧ mayChange s.nextEvent (.reg 1) = false ∧
    mayChange s.nextEvent (.byte 0x1FF) = false ∧ mayChange s.nextEvent (.byte 0x200) = true :=
  ⟨by decide, ⟨_, rfl⟩, by decide, by decide, by decide⟩

theorem witness_ExactlySixInstructionsWriteTheFlag :
    writesFlag (.shr 0xF 0) = true ∧ (writesFlag (.ldImm 1 0) = false ∧ namesDestination 0xF (.ldImm 1 0) = false) ∧
    (writesFlag (.ldVxMem 0xE) = false ∧ namesDestination 0xF (.ldVxMem 0xE) = false) ∧
    namesDestination 0xF (.ldVxMem 0xF) = true := by decide

theorem witness_SoundTimerIsNeverObserved :
    SameButSt State.reset { State.reset with st := 5 } ∧ step State.reset = .next State.reset := ⟨rfl, rfl⟩

theorem witness_WaitRegIsNotObservedOutsideAWait :
    SameButIdleWaitReg State.reset { State.reset with waitReg := 5 } ∧ step State.reset = .next State.reset :=
  ⟨.inr ⟨rfl, rfl⟩, rfl⟩

theorem witness_FifteenNestedCallsReturn :
    (List.replicate 15 (0x300 : Addr12) ≠ [] ∧ s0.sp.toNat + (List.replicate 15 (0x300 : Addr12)).length ≤ 15) ∧
    ([0x300] ≠ ([] : List Addr12) ∧ ({ s0 with sp := 14 } : State).sp.toNat + [0x300].length ≤ 15) := by decide

theorem witness_SixteenthNestedCallLosesItsReturnAddress : ({ s0 with sp := 15 } : State).sp = 15 := rfl

theorem witness_SelfJumpIsFinal :
    let s := sWord 0x12 0x00
    s.pending = [] ∧ s.run = true ∧ s.wait = false ∧ decodeWord s.fetch16 = .instr (.jp 0x200) ∧
    s.pc.toNat = (0x200 : Addr12).toNat := by decide +kernel

theorem witness_AStoreIsSeenByTheNextFetch :
    ({ s0 with i := 0x0202 } : State).i = s0.pc + 2 ∧
    ({ s0 with pc := 0x0FFD, i := 0x0FFF } : State).i = (0x0FFD : Word) + 2 := by decide

theorem witness_PowerOnLoadStartRunsTheProgram :
    ([] : List Byte).length + 2 ≤ 3584 ∧ (List.replicate 3582 (0 : Byte)).length + 2 ≤ 3584 := by
  refine ⟨by decide, ?_⟩
  rw [List.length_replicate]

end Sys2Proof.Tests
end

section
/-! PROOFS. The general registers and PC after a Reset (10_state.md R13). -/

namespace Sys2Proof.Machine

/-- A `Reset` is accepted while RUN = 0 (70_reset_and_hazards.md R202). -/
theorem State.requestReset_of_stopped {s : State} (h : s.run = false) : s.requestReset = s.reinitialise := by
  simp [State.requestReset, h]

/-- The step that performs an accepted `Reset`. -/
theorem step_reset_of_stopped {s : State} {rest : List Event} (hpending : s.pending = .reset :: rest)
    (hrun : s.run = false) : step s = .next s.dequeue.reinitialise := by
  have hstopped : s.dequeue.run = false := (State.dequeue_run s).trans hrun
  calc step s = .next s.dequeue.requestReset := step_of_nextEvent (State.nextEvent_of_cons hpending)
    _ = .next s.dequeue.reinitialise := by rw [State.requestReset_of_stopped hstopped]

/-- Settles O7: an accepted `Reset` answers the reinitialised state, whose registers and PC are those of the reset state. -/
theorem resetClearsEveryRegister : Obligations.ResetClearsEveryRegister := by
  intro s rest hpending hrun
  exact ⟨s.dequeue.reinitialise, step_reset_of_stopped hpending hrun, State.reg_reinitialise s.dequeue,
    State.reinitialise_pc s.dequeue⟩

end Sys2Proof.Machine
end

section
/-! PROOFS. Each instruction changes only the parts its rule names (40_instruction_cycle.md R86): the frame of every
shared operation, said once, and the frames of the 34 instructions put together from them. -/

namespace Sys2Proof.Machine

/-! Frames compose. -/

/-- One change after another touches at most the parts of both. -/
theorem ChangesOnly.trans {s t u : State} {ws ws' : List Part} (h : ChangesOnly s t ws) (k : ChangesOnly t u ws') :
    ChangesOnly s u (ws ++ ws') := by
  intro p hp
  obtain ⟨hws, hws'⟩ := not_or.mp (List.mem_append.not.mp hp)
  exact samePart_trans (h p hws) (k p hws')

theorem ChangesOnly.mono {s t : State} {ws ws' : List Part} (h : ChangesOnly s t ws) (hsub : ws ⊆ ws') :
    ChangesOnly s t ws' :=
  fun p hp => h p (fun hmem => hp (hsub hmem))

/-! The frame of each shared operation. -/

theorem changesOnly_setReg (s : State) (x : RegIdx) (b : Byte) : ChangesOnly s (s.setReg x b) [.reg x] := by
  intro p hp
  cases p with
  | reg r =>
    have hne : r ≠ x := fun he => hp (by simp [he])
    exact (State.reg_setReg s x b r).trans (if_neg hne)
  | _ => rfl

theorem changesOnly_setRegAndFlag (s : State) (x : RegIdx) (b : Byte) (c : Bool) :
    ChangesOnly s (s.setRegAndFlag x b c) [.reg x, .reg flagReg] :=
  (changesOnly_setReg s x b).trans (changesOnly_setReg _ flagReg (flagByte c))

theorem changesOnly_setPc (s : State) (a : Word) : ChangesOnly s (s.setPc a) [.pc] := by
  intro p hp
  cases p with
  | pc => exact absurd List.mem_cons_self hp
  | _ => rfl

theorem changesOnly_setI (s : State) (a : Word) : ChangesOnly s (s.setI a) [.i] := by
  intro p hp
  cases p with
  | i => exact absurd List.mem_cons_self hp
  | _ => rfl

theorem changesOnly_setDt (s : State) (b : Byte) : ChangesOnly s { s with dt := b } [.dt] := by
  intro p hp
  cases p with
  | dt => exact absurd List.mem_cons_self hp
  | _ => rfl

theorem changesOnly_setSt (s : State) (b : Byte) : ChangesOnly s { s with st := b } [.st] := by
  intro p hp
  cases p with
  | st => exact absurd List.mem_cons_self hp
  | _ => rfl

theorem changesOnly_setDisplay (s : State) (d : Display) : ChangesOnly s (s.setDisplay d) [.display] := by
  intro p hp
  cases p with
  | display => exact absurd List.mem_cons_self hp
  | _ => rfl

theorem changesOnly_countDraw (s : State) : ChangesOnly s s.countDraw [.draws] := by
  intro p hp
  cases p with
  | draws => exact absurd List.mem_cons_self hp
  | _ => rfl

theorem changesOnly_beginWait (s : State) (x : RegIdx) :
    ChangesOnly s { s with wait := true, waitReg := x } [.wait, .waitReg] := by
  intro p hp
  cases p with
  | wait => simp at hp
  | waitReg => simp at hp
  | _ => rfl

theorem changesOnly_push (s : State) (ret : Word) : ChangesOnly s (s.push ret) [.slot s.sp, .sp] := by
  intro p hp
  cases p with
  | slot k =>
    have hne : k ≠ s.sp := fun he => hp (by simp [he])
    exact (State.slot_push s ret k).trans (if_neg hne)
  | sp => simp at hp
  | _ => rfl

theorem changesOnly_popToPc (s : State) : ChangesOnly s s.popToPc [.sp, .pc] := by
  intro p hp
  cases p with
  | sp => simp at hp
  | pc => simp at hp
  | _ => rfl

theorem changesOnly_memWrite (s : State) (a : Word) (b : Byte) :
    ChangesOnly s (s.memWrite a b) [.byte (memIndex a)] := by
  intro p hp
  cases p with
  | byte k =>
    have hne : k ≠ memIndex a := fun he => hp (by simp [he])
    exact (Memory.read_write s.mem (memIndex a) b k).trans (if_neg hne)
  | _ => rfl

/-! The block copies (43_index_memory.md R144, R145): one more byte or register at each turn. -/

theorem storedBytes_succ (s : State) (n : Nat) :
    storedBytes s (n + 1) = storedBytes s n ++ [.byte (memIndex (s.dataAddr n))] := by
  simp [storedBytes, List.range_succ]

theorem lowRegs_succ (n : Nat) : lowRegs (n + 1) = lowRegs n ++ [.reg (BitVec.ofNat 4 n)] := by
  simp [lowRegs, List.range_succ]

theorem changesOnly_storeRegs (s : State) (n : Nat) : ChangesOnly s (s.storeRegs n) (storedBytes s n) := by
  induction n with
  | zero => exact fun p _ => samePart_refl s p
  | succ n ih =>
    rw [State.storeRegs_succ, storedBytes_succ]
    exact ih.trans (changesOnly_memWrite _ _ _)

theorem changesOnly_loadRegs (s : State) (n : Nat) : ChangesOnly s (s.loadRegs n) (lowRegs n) := by
  induction n with
  | zero => exact fun p _ => samePart_refl s p
  | succ n ih =>
    rw [State.loadRegs_succ, lowRegs_succ]
    exact ih.trans (changesOnly_setReg _ _ _)

/-- The three digits of LD B go to the three bytes at I (43_index_memory.md R143). -/
theorem changesOnly_memWrite_three (s : State) (b₀ b₁ b₂ : Byte) :
    ChangesOnly s (((s.memWrite (s.dataAddr 0) b₀).memWrite (s.dataAddr 1) b₁).memWrite (s.dataAddr 2) b₂)
      (storedBytes s 3) :=
  ((changesOnly_memWrite s _ b₀).trans (changesOnly_memWrite _ _ b₁)).trans (changesOnly_memWrite _ _ b₂)

/-! The advance after an operation (40_instruction_cycle.md R84), and the skip (R88). -/

theorem ChangesOnly.advance {s t : State} {ws : List Part} (h : ChangesOnly s t ws) :
    ChangesOnly s t.advance (ws ++ [.pc]) :=
  h.trans (changesOnly_setPc t _)

/-- The advance with PC written in front, as the table `writes` lists it for the block copies. -/
theorem ChangesOnly.advance_cons {s t : State} {ws : List Part} (h : ChangesOnly s t ws) :
    ChangesOnly s t.advance (.pc :: ws) :=
  h.advance.mono (List.perm_append_singleton .pc ws).subset

theorem changesOnly_skipIf_advance (s : State) (c : Bool) : ChangesOnly s (s.skipIf c).advance [.pc] := by
  rw [State.skipIf_eq]
  exact (changesOnly_setPc s _).advance.mono (by simp)

/-! The instructions. -/

/-- Settles O49: each instruction's meaning is a chain of the operations above, and its row of `writes` is their frames
one after the other. -/
theorem anInstructionChangesOnlyWhatItsRuleNames : Obligations.AnInstructionChangesOnlyWhatItsRuleNames := by
  intro i s
  cases i with
  | cls => exact ⟨_, rfl, (changesOnly_setDisplay s _).advance⟩
  | ret => exact ⟨_, rfl, changesOnly_popToPc s⟩
  | jp | jpV0 => exact ⟨_, rfl, changesOnly_setPc s _⟩
  | call => exact ⟨_, rfl, (changesOnly_push s _).trans (changesOnly_setPc _ _)⟩
  | seImm | sneImm | seReg | sneReg | skp | sknp => exact ⟨_, rfl, changesOnly_skipIf_advance s _⟩
  | ldImm | addImm | ldReg | orReg | andReg | xorReg | ldVxDt => exact ⟨_, rfl, (changesOnly_setReg s _ _).advance⟩
  | addReg | subReg | shr | subnReg | shl => exact ⟨_, rfl, (changesOnly_setRegAndFlag s _ _ _).advance⟩
  | ldI | addI | ldF => exact ⟨_, rfl, (changesOnly_setI s _).advance⟩
  | rnd => exact ⟨_, rfl, ((changesOnly_setReg s _ _).trans (changesOnly_countDraw _)).advance⟩
  | drw => exact ⟨_, rfl, ((changesOnly_setDisplay s _).trans (changesOnly_setReg _ flagReg _)).advance⟩
  | ldVxK => exact ⟨_, rfl, (changesOnly_beginWait s _).advance⟩
  | ldDtVx => exact ⟨_, rfl, (changesOnly_setDt s _).advance⟩
  | ldStVx => exact ⟨_, rfl, (changesOnly_setSt s _).advance⟩
  | ldB => exact ⟨_, rfl, (changesOnly_memWrite_three s _ _ _).advance_cons⟩
  | ldMemVx => exact ⟨_, rfl, (changesOnly_storeRegs s _).advance_cons⟩
  | ldVxMem => exact ⟨_, rfl, (changesOnly_loadRegs s _).advance_cons⟩

end Sys2Proof.Machine
end

section
/-! PROOFS. The instruction cycle and that every step completes (40_instruction_cycle.md R80, R90). -/

namespace Sys2Proof.Machine

/-! The cycle, one equation per result of the decoder. -/

theorem instrCycle_of_instr {s : State} {i : Instr} (h : decodeWord s.fetch16 = .instr i) :
    instrCycle s = exec i s := by
  rw [instrCycle, h]

theorem instrCycle_of_unrecognized {s : State} {w : Word} (h : decodeWord s.fetch16 = .unrecognized w) :
    instrCycle s = .next (s.passUnrecognized w) := by
  rw [instrCycle, h]

/-- Settles O14: one case for each of Stopped, waiting and Running; the last splits on what the decoder answers. -/
theorem instrTickIsOneInstructionCycle : Obligations.InstrTickIsOneInstructionCycle := by
  intro s hevent
  have hstep : step s = instrTick s.dequeue := step_of_nextEvent hevent
  rw [hstep]
  refine ⟨fun hrun => instrTick_stopped hrun, fun hrun hwait => instrTick_waiting hrun hwait, fun hrun hwait => ?_⟩
  rw [instrTick_running (s := s.dequeue) hrun hwait]
  cases hdecode : decodeWord s.fetch16 with
  | instr i => exact instrCycle_of_instr hdecode
  | unrecognized w => exact instrCycle_of_unrecognized hdecode

/-! Completion. -/

/-- Every instruction completes: the first half of the frame rule. -/
theorem exec_answers_next (i : Instr) (s : State) : ∃ t, exec i s = .next t := by
  obtain ⟨t, hexec, -⟩ := anInstructionChangesOnlyWhatItsRuleNames i s
  exact ⟨t, hexec⟩

theorem instrCycle_answers_next (s : State) : ∃ t, instrCycle s = .next t := by
  cases hdecode : decodeWord s.fetch16 with
  | instr i => rw [instrCycle_of_instr hdecode]; exact exec_answers_next i s
  | unrecognized w => exact ⟨_, instrCycle_of_unrecognized hdecode⟩

theorem instrTick_answers_next (s : State) : ∃ t, instrTick s = .next t := by
  cases hrun : s.run with
  | false => exact ⟨_, instrTick_stopped hrun⟩
  | true =>
    cases hwait : s.wait with
    | true => exact ⟨_, instrTick_waiting hrun hwait⟩
    | false => rw [instrTick_running hrun hwait]; exact instrCycle_answers_next s

/-- Every event is performed; only `InstrTick` can do more than one record update. -/
theorem deliver_answers_next (e : Event) (s : State) : ∃ t, deliver e s = .next t := by
  cases e with
  | instrTick => exact instrTick_answers_next s
  | _ => exact ⟨_, rfl⟩

/-- Settles O18: every instruction completes, and so does the delivery of whatever event comes next. -/
theorem everyStepHasANextState : Obligations.EveryStepHasANextState :=
  ⟨exec_answers_next, fun s => deliver_answers_next s.nextEvent s.dequeue⟩

end Sys2Proof.Machine
end

section
/-! PROOFS. Which words decode to an instruction, read off its one row of the decode table (30_encoding.md R64), and the
jump and the skips on an immediate (41_flow.md R101, R103, R104). -/

namespace Sys2Proof

open Laws.InRow (rowMnemonic)

/-! The rows of the decode table, told apart by their mnemonics. -/

/-- Whatever word it reads, a row builds instructions of its own mnemonic. -/
theorem rowMnemonic_build {r : Row} (hr : r ∈ rows) (w : Word) : rowMnemonic (r.build w) = r.mnemonic := by
  have hmap : rows.map (fun q w => rowMnemonic (q.build w)) = rows.map (fun q _ => q.mnemonic) := rfl
  exact congrFun (List.map_inj_left.mp hmap r hr) w

theorem rows_mnemonic_nodup : (rows.map Row.mnemonic).Nodup := by decide

/-- A row is the only one that builds instructions of its mnemonic. -/
theorem eq_of_build_eq {q r : Row} (hq : q ∈ rows) (hr : r ∈ rows) {w : Word} {i : Instr} (hbuild : q.build w = i)
    (hname : r.mnemonic = rowMnemonic i) : q = r := by
  apply List.inj_on_of_nodup_map rows_mnemonic_nodup hq hr
  calc q.mnemonic = rowMnemonic (q.build w) := (rowMnemonic_build hq w).symm
    _ = r.mnemonic := by rw [hbuild, hname]

/-- The row with `i`'s mnemonic is where `i` is decoded from. -/
theorem decodesFrom_of_mnemonic {i : Instr} {r : Row} (hr : r ∈ rows) (hname : r.mnemonic = rowMnemonic i)
    {fields : Word → Prop} (hbuild : ∀ w, r.build w = i ↔ fields w) : DecodesFrom i r.mask r.pat fields := by
  refine decodesFrom_of_row hr hbuild fun q hq w hqw => ?_
  have hqr : q = r := eq_of_build_eq hq hr hqw hname
  exact ⟨congrArg Row.mask hqr, congrArg Row.pat hqr⟩

theorem decodesFrom_jp (nnn : Addr12) : DecodesFrom (.jp nnn) 0xF000 0x1000 (fun w => w.extractLsb' 0 12 = nnn) :=
  decodesFrom_of_mnemonic (r := rows[2]) (List.getElem_mem _) rfl fun w => Iff.of_eq (Instr.jp.injEq (fieldNNN w) nnn)

theorem decodesFrom_seImm (x : RegIdx) (kk : Byte) :
    DecodesFrom (.seImm x kk) 0xF000 0x3000 (fun w => w.extractLsb' 8 4 = x ∧ w.extractLsb' 0 8 = kk) :=
  decodesFrom_of_mnemonic (r := rows[4]) (List.getElem_mem _) rfl
    fun w => Iff.of_eq (Instr.seImm.injEq (fieldX w) (fieldKK w) x kk)

theorem decodesFrom_sneImm (x : RegIdx) (kk : Byte) :
    DecodesFrom (.sneImm x kk) 0xF000 0x4000 (fun w => w.extractLsb' 8 4 = x ∧ w.extractLsb' 0 8 = kk) :=
  decodesFrom_of_mnemonic (r := rows[5]) (List.getElem_mem _) rfl
    fun w => Iff.of_eq (Instr.sneImm.injEq (fieldX w) (fieldKK w) x kk)

end Sys2Proof

namespace Sys2Proof.Machine

/-! PC after a jump and after a skip. -/

/-- An address operand has 12 bits, so the high four bits of the word it gives are 0. -/
@[simp] theorem absAddr_toNat (nnn : Addr12) : (absAddr nnn).toNat = nnn.toNat :=
  BitVec.toNat_setWidth_of_le (by decide)

/-- A taken skip and the advance after it add up (40_instruction_cycle.md R88). -/
theorem State.skipIf_advance_pc (s : State) (c : Bool) :
    (s.skipIf c).advance.pc = if c then s.pc + 4 else s.pc + 2 := by
  cases c with
  | true => exact BitVec.add_assoc s.pc 2 2
  | false => rfl

/-- Settles O19: the jump is one write of PC. -/
theorem jpSetsPc : Obligations.JpSetsPc := by
  intro nnn
  refine ⟨decodesFrom_jp nnn, fun s => ⟨s.setPc (absAddr nnn), rfl, ?_, changesOnly_setPc s _⟩⟩
  exact absAddr_toNat nnn

/-- Settles O22: SE and SNE are the same skip, under the test and under its negation. -/
theorem skipsOnAnImmediate : Obligations.SkipsOnAnImmediate := by
  intro x kk
  refine ⟨decodesFrom_seImm x kk, decodesFrom_sneImm x kk, fun s => ⟨?_, ?_⟩⟩
  · refine ⟨(s.skipIf (s.reg x == kk)).advance, rfl, ?_, changesOnly_skipIf_advance s _⟩
    rw [State.skipIf_advance_pc]
    simp
  · refine ⟨(s.skipIf (s.reg x != kk)).advance, rfl, ?_, changesOnly_skipIf_advance s _⟩
    rw [State.skipIf_advance_pc]
    simp

end Sys2Proof.Machine
end

section
/-! PROOFS. The load of an immediate (42_alu.md R120). -/

namespace Sys2Proof

theorem decodesFrom_ldImm (x : RegIdx) (kk : Byte) :
    DecodesFrom (.ldImm x kk) 0xF000 0x6000 (fun w => w.extractLsb' 8 4 = x ∧ w.extractLsb' 0 8 = kk) :=
  decodesFrom_of_mnemonic (r := rows[7]) (List.getElem_mem _) rfl
    fun w => Iff.of_eq (Instr.ldImm.injEq (fieldX w) (fieldKK w) x kk)

end Sys2Proof

namespace Sys2Proof.Machine

/-- Settles O25: the load is one register write and the advance. -/
theorem ldImmLoadsTheByte : Obligations.LdImmLoadsTheByte := by
  intro x kk
  refine ⟨decodesFrom_ldImm x kk, fun s => ?_⟩
  have hreg : (s.setReg x kk).advance.reg x = kk := by
    rw [State.reg_advance, State.reg_setReg, if_pos rfl]
  exact ⟨(s.setReg x kk).advance, rfl, hreg, State.advance_pc _, (changesOnly_setReg s x kk).advance⟩

end Sys2Proof.Machine
end

section
/-! PROOFS. The load of the index register with an address (43_index_memory.md R140). -/

namespace Sys2Proof

theorem decodesFrom_ldI (nnn : Addr12) : DecodesFrom (.ldI nnn) 0xF000 0xA000 (fun w => w.extractLsb' 0 12 = nnn) :=
  decodesFrom_of_mnemonic (r := rows[19]) (List.getElem_mem _) rfl
    fun w => Iff.of_eq (Instr.ldI.injEq (fieldNNN w) nnn)

end Sys2Proof

namespace Sys2Proof.Machine

/-- Settles O32: the load is one write of I, with the address zero-extended, and the advance. -/
theorem ldILoadsTheAddress : Obligations.LdILoadsTheAddress := by
  intro nnn
  refine ⟨decodesFrom_ldI nnn, fun s => ?_⟩
  have hi : (s.setI (absAddr nnn)).advance.i.toNat = nnn.toNat := by
    rw [State.advance_i, State.setI_i, absAddr_toNat]
  exact ⟨(s.setI (absAddr nnn)).advance, rfl, hi, State.advance_pc _, (changesOnly_setI s _).advance⟩

end Sys2Proof.Machine
end

section
/-! PROOFS. The draw of a sprite, pixel by pixel (44_display.md R151, R152). -/

namespace Sys2Proof.Machine

/-! What a draw of at most 32 rows does: its 1 bits land on different pixels, so each hit pixel is inverted once. -/

theorem drawSprite_drawn (d : Display) (x0 y0 : Byte) (bytes : List Byte) (hlen : bytes.length ≤ 32) :
    SpriteDrawn d (drawSprite d x0 y0 bytes).1 x0 y0 (fun r => bytes.getD r 0) bytes.length := by
  have hnodup : (spritePixelsFrom x0 y0 0 bytes).Nodup := spritePixelsFrom_nodup x0 y0 0 bytes (by omega)
  intro p
  rw [drawSprite, (plot_foldl _ hnodup d false).1 p, ← mem_spritePixelsFrom_iff_hits]
  exact ⟨fun hhit => if_pos hhit, fun hmiss => if_neg hmiss⟩

theorem drawSprite_collides_iff (d : Display) (x0 y0 : Byte) (bytes : List Byte) (hlen : bytes.length ≤ 32) :
    (drawSprite d x0 y0 bytes).2 = true ↔ SpriteCollides d x0 y0 (fun r => bytes.getD r 0) bytes.length := by
  have hnodup : (spritePixelsFrom x0 y0 0 bytes).Nodup := spritePixelsFrom_nodup x0 y0 0 bytes (by omega)
  rw [drawSprite, (plot_foldl _ hnodup d false).2]
  simp only [SpriteCollides, ← mem_spritePixelsFrom_iff_hits, Bool.false_eq_true, false_or]

/-! The coordinates count only modulo 64 and 32: every pixel's place is already reduced. -/

theorem spritePixel_mod_coordinates (x0 y0 : Byte) :
    spritePixel (BitVec.ofNat 8 (x0.toNat % 64)) (BitVec.ofNat 8 (y0.toNat % 32)) = spritePixel x0 y0 := by
  funext row col
  simp only [spritePixel, BitVec.toNat_ofNat, Prod.mk.injEq, Fin.ext_iff, Fin.val_ofNat]
  omega

/-- The coordinates reach the pixels of a sprite through `spritePixel` only. -/
theorem spritePixelsFrom_congr {x0 y0 x1 y1 : Byte} (h : spritePixel x0 y0 = spritePixel x1 y1) (row : Nat)
    (bytes : List Byte) : spritePixelsFrom x0 y0 row bytes = spritePixelsFrom x1 y1 row bytes := by
  induction bytes generalizing row with
  | nil => rfl
  | cons b bs ih => rw [spritePixelsFrom, spritePixelsFrom, rowPixels, rowPixels, h, ih]

theorem drawSprite_mod_coordinates (d : Display) (x0 y0 : Byte) (bytes : List Byte) :
    drawSprite d (BitVec.ofNat 8 (x0.toNat % 64)) (BitVec.ofNat 8 (y0.toNat % 32)) bytes = drawSprite d x0 y0 bytes := by
  rw [drawSprite, drawSprite, spritePixelsFrom_congr (spritePixel_mod_coordinates x0 y0)]

/-- Settles O38: at most 15 rows are at most 32, so no two 1 bits of the sprite land on one pixel. -/
theorem drawSpriteIsPixelwiseXor : Obligations.DrawSpriteIsPixelwiseXor := by
  intro d x0 y0 bytes hlen
  have hrows : bytes.length ≤ 32 := hlen.trans (by decide)
  exact ⟨drawSprite_drawn d x0 y0 bytes hrows, drawSprite_collides_iff d x0 y0 bytes hrows,
    drawSprite_mod_coordinates d x0 y0 bytes⟩

end Sys2Proof.Machine
end

section
/-! PROOFS. Which words decode to each of the other instructions: each has its one row of the decode table
(30_encoding.md R64). -/

namespace Sys2Proof

theorem decodesFrom_cls (ign : Nibble) :
    DecodesFrom (.cls ign) 0xF0FF 0x00E0 (fun w => w.extractLsb' 8 4 = ign) :=
  decodesFrom_of_mnemonic (r := rows[0]) (List.getElem_mem _) rfl
    fun w => Iff.of_eq (Instr.cls.injEq (fieldX w) ign)

theorem decodesFrom_ret (ign : Nibble) :
    DecodesFrom (.ret ign) 0xF0FF 0x00EE (fun w => w.extractLsb' 8 4 = ign) :=
  decodesFrom_of_mnemonic (r := rows[1]) (List.getElem_mem _) rfl
    fun w => Iff.of_eq (Instr.ret.injEq (fieldX w) ign)

theorem decodesFrom_call (nnn : Addr12) :
    DecodesFrom (.call nnn) 0xF000 0x2000 (fun w => w.extractLsb' 0 12 = nnn) :=
  decodesFrom_of_mnemonic (r := rows[3]) (List.getElem_mem _) rfl
    fun w => Iff.of_eq (Instr.call.injEq (fieldNNN w) nnn)

theorem decodesFrom_seReg (x y : RegIdx) (ign : Nibble) :
    DecodesFrom (.seReg x y ign) 0xF000 0x5000
      (fun w => w.extractLsb' 8 4 = x ∧ w.extractLsb' 4 4 = y ∧ w.extractLsb' 0 4 = ign) :=
  decodesFrom_of_mnemonic (r := rows[6]) (List.getElem_mem _) rfl
    fun w => Iff.of_eq (Instr.seReg.injEq (fieldX w) (fieldY w) (fieldN w) x y ign)

theorem decodesFrom_addImm (x : RegIdx) (kk : Byte) :
    DecodesFrom (.addImm x kk) 0xF000 0x7000 (fun w => w.extractLsb' 8 4 = x ∧ w.extractLsb' 0 8 = kk) :=
  decodesFrom_of_mnemonic (r := rows[8]) (List.getElem_mem _) rfl
    fun w => Iff.of_eq (Instr.addImm.injEq (fieldX w) (fieldKK w) x kk)

theorem decodesFrom_ldReg (x y : RegIdx) :
    DecodesFrom (.ldReg x y) 0xF00F 0x8000 (fun w => w.extractLsb' 8 4 = x ∧ w.extractLsb' 4 4 = y) :=
  decodesFrom_of_mnemonic (r := rows[9]) (List.getElem_mem _) rfl
    fun w => Iff.of_eq (Instr.ldReg.injEq (fieldX w) (fieldY w) x y)

theorem decodesFrom_orReg (x y : RegIdx) :
    DecodesFrom (.orReg x y) 0xF00F 0x8001 (fun w => w.extractLsb' 8 4 = x ∧ w.extractLsb' 4 4 = y) :=
  decodesFrom_of_mnemonic (r := rows[10]) (List.getElem_mem _) rfl
    fun w => Iff.of_eq (Instr.orReg.injEq (fieldX w) (fieldY w) x y)

theorem decodesFrom_andReg (x y : RegIdx) :
    DecodesFrom (.andReg x y) 0xF00F 0x8002 (fun w => w.extractLsb' 8 4 = x ∧ w.extractLsb' 4 4 = y) :=
  decodesFrom_of_mnemonic (r := rows[11]) (List.getElem_mem _) rfl
    fun w => Iff.of_eq (Instr.andReg.injEq (fieldX w) (fieldY w) x y)

theorem decodesFrom_xorReg (x y : RegIdx) :
    DecodesFrom (.xorReg x y) 0xF00F 0x8003 (fun w => w.extractLsb' 8 4 = x ∧ w.extractLsb' 4 4 = y) :=
  decodesFrom_of_mnemonic (r := rows[12]) (List.getElem_mem _) rfl
    fun w => Iff.of_eq (Instr.xorReg.injEq (fieldX w) (fieldY w) x y)

theorem decodesFrom_addReg (x y : RegIdx) :
    DecodesFrom (.addReg x y) 0xF00F 0x8004 (fun w => w.extractLsb' 8 4 = x ∧ w.extractLsb' 4 4 = y) :=
  decodesFrom_of_mnemonic (r := rows[13]) (List.getElem_mem _) rfl
    fun w => Iff.of_eq (Instr.addReg.injEq (fieldX w) (fieldY w) x y)

theorem decodesFrom_subReg (x y : RegIdx) :
    DecodesFrom (.subReg x y) 0xF00F 0x8005 (fun w => w.extractLsb' 8 4 = x ∧ w.extractLsb' 4 4 = y) :=
  decodesFrom_of_mnemonic (r := rows[14]) (List.getElem_mem _) rfl
    fun w => Iff.of_eq (Instr.subReg.injEq (fieldX w) (fieldY w) x y)

theorem decodesFrom_shr (x y : RegIdx) :
    DecodesFrom (.shr x y) 0xF00F 0x8006 (fun w => w.extractLsb' 8 4 = x ∧ w.extractLsb' 4 4 = y) :=
  decodesFrom_of_mnemonic (r := rows[15]) (List.getElem_mem _) rfl
    fun w => Iff.of_eq (Instr.shr.injEq (fieldX w) (fieldY w) x y)

theorem decodesFrom_subnReg (x y : RegIdx) :
    DecodesFrom (.subnReg x y) 0xF00F 0x8007 (fun w => w.extractLsb' 8 4 = x ∧ w.extractLsb' 4 4 = y) :=
  decodesFrom_of_mnemonic (r := rows[16]) (List.getElem_mem _) rfl
    fun w => Iff.of_eq (Instr.subnReg.injEq (fieldX w) (fieldY w) x y)

theorem decodesFrom_shl (x y : RegIdx) :
    DecodesFrom (.shl x y) 0xF00F 0x800E (fun w => w.extractLsb' 8 4 = x ∧ w.extractLsb' 4 4 = y) :=
  decodesFrom_of_mnemonic (r := rows[17]) (List.getElem_mem _) rfl
    fun w => Iff.of_eq (Instr.shl.injEq (fieldX w) (fieldY w) x y)

theorem decodesFrom_sneReg (x y : RegIdx) (ign : Nibble) :
    DecodesFrom (.sneReg x y ign) 0xF000 0x9000
      (fun w => w.extractLsb' 8 4 = x ∧ w.extractLsb' 4 4 = y ∧ w.extractLsb' 0 4 = ign) :=
  decodesFrom_of_mnemonic (r := rows[18]) (List.getElem_mem _) rfl
    fun w => Iff.of_eq (Instr.sneReg.injEq (fieldX w) (fieldY w) (fieldN w) x y ign)

theorem decodesFrom_jpV0 (nnn : Addr12) :
    DecodesFrom (.jpV0 nnn) 0xF000 0xB000 (fun w => w.extractLsb' 0 12 = nnn) :=
  decodesFrom_of_mnemonic (r := rows[20]) (List.getElem_mem _) rfl
    fun w => Iff.of_eq (Instr.jpV0.injEq (fieldNNN w) nnn)

theorem decodesFrom_rnd (x : RegIdx) (kk : Byte) :
    DecodesFrom (.rnd x kk) 0xF000 0xC000 (fun w => w.extractLsb' 8 4 = x ∧ w.extractLsb' 0 8 = kk) :=
  decodesFrom_of_mnemonic (r := rows[21]) (List.getElem_mem _) rfl
    fun w => Iff.of_eq (Instr.rnd.injEq (fieldX w) (fieldKK w) x kk)

theorem decodesFrom_drw (x y : RegIdx) (n : Nibble) :
    DecodesFrom (.drw x y n) 0xF000 0xD000
      (fun w => w.extractLsb' 8 4 = x ∧ w.extractLsb' 4 4 = y ∧ w.extractLsb' 0 4 = n) :=
  decodesFrom_of_mnemonic (r := rows[22]) (List.getElem_mem _) rfl
    fun w => Iff.of_eq (Instr.drw.injEq (fieldX w) (fieldY w) (fieldN w) x y n)

theorem decodesFrom_skp (x : RegIdx) :
    DecodesFrom (.skp x) 0xF0FF 0xE09E (fun w => w.extractLsb' 8 4 = x) :=
  decodesFrom_of_mnemonic (r := rows[23]) (List.getElem_mem _) rfl
    fun w => Iff.of_eq (Instr.skp.injEq (fieldX w) x)

theorem decodesFrom_sknp (x : RegIdx) :
    DecodesFrom (.sknp x) 0xF0FF 0xE0A1 (fun w => w.extractLsb' 8 4 = x) :=
  decodesFrom_of_mnemonic (r := rows[24]) (List.getElem_mem _) rfl
    fun w => Iff.of_eq (Instr.sknp.injEq (fieldX w) x)

theorem decodesFrom_ldVxDt (x : RegIdx) :
    DecodesFrom (.ldVxDt x) 0xF0FF 0xF007 (fun w => w.extractLsb' 8 4 = x) :=
  decodesFrom_of_mnemonic (r := rows[25]) (List.getElem_mem _) rfl
    fun w => Iff.of_eq (Instr.ldVxDt.injEq (fieldX w) x)

theorem decodesFrom_ldVxK (x : RegIdx) :
    DecodesFrom (.ldVxK x) 0xF0FF 0xF00A (fun w => w.extractLsb' 8 4 = x) :=
  decodesFrom_of_mnemonic (r := rows[26]) (List.getElem_mem _) rfl
    fun w => Iff.of_eq (Instr.ldVxK.injEq (fieldX w) x)

theorem decodesFrom_ldDtVx (x : RegIdx) :
    DecodesFrom (.ldDtVx x) 0xF0FF 0xF015 (fun w => w.extractLsb' 8 4 = x) :=
  decodesFrom_of_mnemonic (r := rows[27]) (List.getElem_mem _) rfl
    fun w => Iff.of_eq (Instr.ldDtVx.injEq (fieldX w) x)

theorem decodesFrom_ldStVx (x : RegIdx) :
    DecodesFrom (.ldStVx x) 0xF0FF 0xF018 (fun w => w.extractLsb' 8 4 = x) :=
  decodesFrom_of_mnemonic (r := rows[28]) (List.getElem_mem _) rfl
    fun w => Iff.of_eq (Instr.ldStVx.injEq (fieldX w) x)

theorem decodesFrom_addI (x : RegIdx) :
    DecodesFrom (.addI x) 0xF0FF 0xF01E (fun w => w.extractLsb' 8 4 = x) :=
  decodesFrom_of_mnemonic (r := rows[29]) (List.getElem_mem _) rfl
    fun w => Iff.of_eq (Instr.addI.injEq (fieldX w) x)

theorem decodesFrom_ldF (x : RegIdx) :
    DecodesFrom (.ldF x) 0xF0FF 0xF029 (fun w => w.extractLsb' 8 4 = x) :=
  decodesFrom_of_mnemonic (r := rows[30]) (List.getElem_mem _) rfl
    fun w => Iff.of_eq (Instr.ldF.injEq (fieldX w) x)

theorem decodesFrom_ldB (x : RegIdx) :
    DecodesFrom (.ldB x) 0xF0FF 0xF033 (fun w => w.extractLsb' 8 4 = x) :=
  decodesFrom_of_mnemonic (r := rows[31]) (List.getElem_mem _) rfl
    fun w => Iff.of_eq (Instr.ldB.injEq (fieldX w) x)

theorem decodesFrom_ldMemVx (x : RegIdx) :
    DecodesFrom (.ldMemVx x) 0xF0FF 0xF055 (fun w => w.extractLsb' 8 4 = x) :=
  decodesFrom_of_mnemonic (r := rows[32]) (List.getElem_mem _) rfl
    fun w => Iff.of_eq (Instr.ldMemVx.injEq (fieldX w) x)

theorem decodesFrom_ldVxMem (x : RegIdx) :
    DecodesFrom (.ldVxMem x) 0xF0FF 0xF065 (fun w => w.extractLsb' 8 4 = x) :=
  decodesFrom_of_mnemonic (r := rows[33]) (List.getElem_mem _) rfl
    fun w => Iff.of_eq (Instr.ldVxMem.injEq (fieldX w) x)
end Sys2Proof
end

section
/-! PROOFS. Encode and decode are inverse to each other (30_encoding.md R64, R71): a word is its fields side by side,
and to hold a row's match and an instruction's operands is to be that instruction's word. -/

namespace Sys2Proof

/-! A word put together from its own fields, and the operation nibble of each format (30_encoding.md R61, R62). -/

theorem wordA_fields (w : Word) : wordA (w.extractLsb' 12 4) (w.extractLsb' 0 12) = w := by
  apply BitVec.eq_of_getLsbD_eq
  intro k hk
  interval_cases k <;> simp [wordA]

theorem wordXK_fields (w : Word) : wordXK (w.extractLsb' 12 4) (w.extractLsb' 8 4) (w.extractLsb' 0 8) = w := by
  apply BitVec.eq_of_getLsbD_eq
  intro k hk
  interval_cases k <;> simp [wordXK]

theorem wordXYN_fields (w : Word) :
    wordXYN (w.extractLsb' 12 4) (w.extractLsb' 8 4) (w.extractLsb' 4 4) (w.extractLsb' 0 4) = w := by
  apply BitVec.eq_of_getLsbD_eq
  intro k hk
  interval_cases k <;> simp [wordXYN]

theorem opNibble_wordA (op : Nibble) (nnn : Addr12) : (wordA op nnn).extractLsb' 12 4 = op := by
  apply BitVec.eq_of_getLsbD_eq
  intro k hk
  interval_cases k <;> simp [wordA]

theorem opNibble_wordXK (op x : Nibble) (kk : Byte) : (wordXK op x kk).extractLsb' 12 4 = op := by
  apply BitVec.eq_of_getLsbD_eq
  intro k hk
  interval_cases k <;> simp [wordXK]

theorem opNibble_wordXYN (op x y n : Nibble) : (wordXYN op x y n).extractLsb' 12 4 = op := by
  apply BitVec.eq_of_getLsbD_eq
  intro k hk
  interval_cases k <;> simp [wordXYN]

/-! What a mask of R64 leaves of a word names the fields it examines. -/

theorem opNibble_of_mask {w u : Word} (h : w &&& 0xF000 = u) : w.extractLsb' 12 4 = u.extractLsb' 12 4 := by
  rw [← h, ← wordXK_fields w, wordXK_mask, opNibble_wordXK, opNibble_wordXK]

theorem fields_of_mask_low {w u : Word} (h : w &&& 0xF0FF = u) :
    w.extractLsb' 12 4 = u.extractLsb' 12 4 ∧ w.extractLsb' 0 8 = u.extractLsb' 0 8 := by
  rw [← h, ← wordXK_fields w, wordXK_mask_low, opNibble_wordXK, opNibble_wordXK]
  exact ⟨rfl, (fieldKK_wordXK _ _ _).trans (fieldKK_wordXK _ _ _).symm⟩

theorem fields_of_mask_nibble {w u : Word} (h : w &&& 0xF00F = u) :
    w.extractLsb' 12 4 = u.extractLsb' 12 4 ∧ w.extractLsb' 0 4 = u.extractLsb' 0 4 := by
  rw [← h, ← wordXYN_fields w, wordXYN_mask_low, opNibble_wordXYN, opNibble_wordXYN]
  exact ⟨rfl, (fieldN_wordXYN _ _ _ _).trans (fieldN_wordXYN _ _ _ _).symm⟩

/-! Each format: to be the word of these fields is to have the row's match and to hold the operands. -/

theorem wordA_eq_iff {op : Nibble} {nnn : Addr12} {w : Word} :
    wordA op nnn = w ↔ w &&& 0xF000 = wordA op 0 ∧ w.extractLsb' 0 12 = nnn := by
  constructor
  · rintro rfl
    exact ⟨wordA_mask _ _, fieldNNN_wordA _ _⟩
  · rintro ⟨hmask, rfl⟩
    have hop : w.extractLsb' 12 4 = op := (opNibble_of_mask hmask).trans (opNibble_wordA _ _)
    rw [← hop, wordA_fields]

theorem wordXK_eq_iff {op x : Nibble} {kk : Byte} {w : Word} :
    wordXK op x kk = w ↔ w &&& 0xF000 = wordXK op 0 0 ∧ w.extractLsb' 8 4 = x ∧ w.extractLsb' 0 8 = kk := by
  constructor
  · rintro rfl
    exact ⟨wordXK_mask _ _ _, fieldX_wordXK _ _ _, fieldKK_wordXK _ _ _⟩
  · rintro ⟨hmask, rfl, rfl⟩
    have hop : w.extractLsb' 12 4 = op := (opNibble_of_mask hmask).trans (opNibble_wordXK _ _ _)
    rw [← hop, wordXK_fields]

theorem wordXK_selector_eq_iff {op x : Nibble} {sel : Byte} {w : Word} :
    wordXK op x sel = w ↔ w &&& 0xF0FF = wordXK op 0 sel ∧ w.extractLsb' 8 4 = x := by
  constructor
  · rintro rfl
    exact ⟨wordXK_mask_low _ _ _, fieldX_wordXK _ _ _⟩
  · rintro ⟨hmask, rfl⟩
    obtain ⟨hop, hsel⟩ := fields_of_mask_low hmask
    rw [opNibble_wordXK] at hop
    have hsel : w.extractLsb' 0 8 = sel := hsel.trans (fieldKK_wordXK _ _ _)
    rw [← hop, ← hsel, wordXK_fields]

theorem wordXYN_eq_iff {op x y n : Nibble} {w : Word} : wordXYN op x y n = w ↔
    w &&& 0xF000 = wordXYN op 0 0 0 ∧ w.extractLsb' 8 4 = x ∧ w.extractLsb' 4 4 = y ∧ w.extractLsb' 0 4 = n := by
  constructor
  · rintro rfl
    exact ⟨wordXYN_mask _ _ _ _, fieldX_wordXYN _ _ _ _, fieldY_wordXYN _ _ _ _, fieldN_wordXYN _ _ _ _⟩
  · rintro ⟨hmask, rfl, rfl, rfl⟩
    have hop : w.extractLsb' 12 4 = op := (opNibble_of_mask hmask).trans (opNibble_wordXYN _ _ _ _)
    rw [← hop, wordXYN_fields]

theorem wordXYN_selector_eq_iff {op x y sel : Nibble} {w : Word} : wordXYN op x y sel = w ↔
    w &&& 0xF00F = wordXYN op 0 0 sel ∧ w.extractLsb' 8 4 = x ∧ w.extractLsb' 4 4 = y := by
  constructor
  · rintro rfl
    exact ⟨wordXYN_mask_low _ _ _ _, fieldX_wordXYN _ _ _ _, fieldY_wordXYN _ _ _ _⟩
  · rintro ⟨hmask, rfl, rfl⟩
    obtain ⟨hop, hsel⟩ := fields_of_mask_nibble hmask
    rw [opNibble_wordXYN] at hop
    have hsel : w.extractLsb' 0 4 = sel := hsel.trans (fieldN_wordXYN _ _ _ _)
    rw [← hop, ← hsel, wordXYN_fields]

/-- The decoder and the encoder say the same of a word and an instruction. -/
theorem encode_eq_iff (i : Instr) (w : Word) : encode i = w ↔ decodeWord w = .instr i := by
  cases i with
  | cls ign => exact wordXK_selector_eq_iff.trans (decodesFrom_cls ign w).symm
  | ret ign => exact wordXK_selector_eq_iff.trans (decodesFrom_ret ign w).symm
  | jp nnn => exact wordA_eq_iff.trans (decodesFrom_jp nnn w).symm
  | call nnn => exact wordA_eq_iff.trans (decodesFrom_call nnn w).symm
  | seImm x kk => exact wordXK_eq_iff.trans (decodesFrom_seImm x kk w).symm
  | sneImm x kk => exact wordXK_eq_iff.trans (decodesFrom_sneImm x kk w).symm
  | seReg x y ign => exact wordXYN_eq_iff.trans (decodesFrom_seReg x y ign w).symm
  | ldImm x kk => exact wordXK_eq_iff.trans (decodesFrom_ldImm x kk w).symm
  | addImm x kk => exact wordXK_eq_iff.trans (decodesFrom_addImm x kk w).symm
  | ldReg x y => exact wordXYN_selector_eq_iff.trans (decodesFrom_ldReg x y w).symm
  | orReg x y => exact wordXYN_selector_eq_iff.trans (decodesFrom_orReg x y w).symm
  | andReg x y => exact wordXYN_selector_eq_iff.trans (decodesFrom_andReg x y w).symm
  | xorReg x y => exact wordXYN_selector_eq_iff.trans (decodesFrom_xorReg x y w).symm
  | addReg x y => exact wordXYN_selector_eq_iff.trans (decodesFrom_addReg x y w).symm
  | subReg x y => exact wordXYN_selector_eq_iff.trans (decodesFrom_subReg x y w).symm
  | shr x y => exact wordXYN_selector_eq_iff.trans (decodesFrom_shr x y w).symm
  | subnReg x y => exact wordXYN_selector_eq_iff.trans (decodesFrom_subnReg x y w).symm
  | shl x y => exact wordXYN_selector_eq_iff.trans (decodesFrom_shl x y w).symm
  | sneReg x y ign => exact wordXYN_eq_iff.trans (decodesFrom_sneReg x y ign w).symm
  | ldI nnn => exact wordA_eq_iff.trans (decodesFrom_ldI nnn w).symm
  | jpV0 nnn => exact wordA_eq_iff.trans (decodesFrom_jpV0 nnn w).symm
  | rnd x kk => exact wordXK_eq_iff.trans (decodesFrom_rnd x kk w).symm
  | drw x y n => exact wordXYN_eq_iff.trans (decodesFrom_drw x y n w).symm
  | skp x => exact wordXK_selector_eq_iff.trans (decodesFrom_skp x w).symm
  | sknp x => exact wordXK_selector_eq_iff.trans (decodesFrom_sknp x w).symm
  | ldVxDt x => exact wordXK_selector_eq_iff.trans (decodesFrom_ldVxDt x w).symm
  | ldVxK x => exact wordXK_selector_eq_iff.trans (decodesFrom_ldVxK x w).symm
  | ldDtVx x => exact wordXK_selector_eq_iff.trans (decodesFrom_ldDtVx x w).symm
  | ldStVx x => exact wordXK_selector_eq_iff.trans (decodesFrom_ldStVx x w).symm
  | addI x => exact wordXK_selector_eq_iff.trans (decodesFrom_addI x w).symm
  | ldF x => exact wordXK_selector_eq_iff.trans (decodesFrom_ldF x w).symm
  | ldB x => exact wordXK_selector_eq_iff.trans (decodesFrom_ldB x w).symm
  | ldMemVx x => exact wordXK_selector_eq_iff.trans (decodesFrom_ldMemVx x w).symm
  | ldVxMem x => exact wordXK_selector_eq_iff.trans (decodesFrom_ldVxMem x w).symm

theorem decodeWord_encode (i : Instr) : decodeWord (encode i) = .instr i := (encode_eq_iff i _).mp rfl

theorem decodeBytes_encodeBytes (i : Instr) (rest : List Byte) :
    decodeBytes (encodeBytes i ++ rest) = .instr i rest := by
  rw [encodeBytes, List.cons_append, List.singleton_append, decodeBytes_pair, wordOfBytes_high_low, decodeWord_encode]

/-- Settles O2: an instruction is what its own word decodes to, and its two bytes make that word. -/
theorem decodeOfEncodeIsTheInstruction : Obligations.DecodeOfEncodeIsTheInstruction :=
  fun i => ⟨decodeWord_encode i, decodeBytes_encodeBytes i⟩

/-- Settles O3: the other direction of the same equivalence. -/
theorem encodeOfDecodeIsTheWord : Obligations.EncodeOfDecodeIsTheWord :=
  fun w i => (encode_eq_iff i w).mpr

end Sys2Proof
end

section
/-! PROOFS. What a step can do, said once, and that every step keeps the memory in its canonical form
(20_memory.md R40). -/

namespace Sys2Proof.Machine

/-- What an `InstrTick` can do (40_instruction_cycle.md R80): nothing, a poll, an instruction, or the two-byte no-op. -/
theorem instrTick_cases {s t : State} (h : instrTick s = .next t) :
    (s.run = false ∧ t = s) ∨ (s.run = true ∧ s.wait = true ∧ t = s.pollKey) ∨
    (s.run = true ∧ s.wait = false ∧ ∃ i, decodeWord s.fetch16 = .instr i ∧ exec i s = .next t) ∨
    (s.run = true ∧ s.wait = false ∧ ∃ w, decodeWord s.fetch16 = .unrecognized w ∧ t = s.passUnrecognized w) := by
  cases hrun : s.run with
  | false =>
    rw [instrTick_stopped hrun] at h
    injection h with h
    exact .inl ⟨rfl, h.symm⟩
  | true =>
    cases hwait : s.wait with
    | true =>
      rw [instrTick_waiting hrun hwait] at h
      injection h with h
      exact .inr (.inl ⟨rfl, rfl, h.symm⟩)
    | false =>
      rw [instrTick_running hrun hwait] at h
      cases hdecode : decodeWord s.fetch16 with
      | instr i =>
        rw [instrCycle_of_instr hdecode] at h
        exact .inr (.inr (.inl ⟨rfl, rfl, i, rfl, h⟩))
      | unrecognized w =>
        rw [instrCycle_of_unrecognized hdecode] at h
        injection h with h
        exact .inr (.inr (.inr ⟨rfl, rfl, w, rfl, h.symm⟩))

/-! Memory after each operation. -/

theorem State.pollKey_mem (s : State) : s.pollKey.mem = s.mem := by
  cases h : s.lastKey with
  | none => rw [State.pollKey_none h]
  | some k => rw [State.pollKey_some h]; rfl

theorem State.loadRegs_mem (s : State) (n : Nat) : (s.loadRegs n).mem = s.mem := by
  rw [State.loadRegs_eq]

theorem State.skipIf_mem (s : State) (c : Bool) : (s.skipIf c).mem = s.mem := by
  rw [State.skipIf_eq]; rfl

/-- Only LD B and LD [I] write memory, and they write at addresses modulo 4096. -/
theorem exec_keeps_memory_canonical {i : Instr} {s t : State} (hs : MemoryCanonical s) (h : exec i s = .next t) :
    MemoryCanonical t := by
  cases i with
  | ldB =>
    cases h
    exact State.memWrite_wf _ _ _ (State.memWrite_wf _ _ _ (State.memWrite_wf _ _ _ hs))
  | ldMemVx =>
    cases h
    exact State.storeRegs_wf s _ hs
  | ldVxMem =>
    cases h
    exact (congrArg Memory.wf (State.loadRegs_mem s _)).trans hs
  | seImm | sneImm | seReg | sneReg | skp | sknp =>
    cases h
    exact (congrArg Memory.wf (State.skipIf_mem s _)).trans hs
  | _ => cases h; exact hs

theorem instrTick_keeps_memory_canonical {s t : State} (hs : MemoryCanonical s) (h : instrTick s = .next t) :
    MemoryCanonical t := by
  obtain ⟨-, rfl⟩ | ⟨-, -, rfl⟩ | ⟨-, -, i, -, hexec⟩ | ⟨-, -, w, -, rfl⟩ := instrTick_cases h
  · exact hs
  · exact (congrArg Memory.wf s.pollKey_mem).trans hs
  · exact exec_keeps_memory_canonical hs hexec
  · exact hs

theorem loadProgram_keeps_memory_canonical {s : State} (hs : MemoryCanonical s) (bytes : List Byte) :
    MemoryCanonical (s.loadProgram bytes) := by
  rw [State.loadProgram_eq]
  by_cases hload : s.acceptsLoad bytes = true
  · obtain ⟨-, -, hlen⟩ := (State.acceptsLoad_iff s bytes).mp hload
    simpa [MemoryCanonical, hload] using Memory.wf_replaceProgram s.mem bytes hlen hs
  · simpa [MemoryCanonical, hload] using hs

/-- A `Reset` is ignored while RUN = 1 (70_reset_and_hazards.md R202). -/
theorem State.requestReset_of_running {s : State} (h : s.run = true) : s.requestReset = s := by
  rw [State.requestReset, if_pos h]

theorem requestReset_keeps_memory_canonical {s : State} (hs : MemoryCanonical s) : MemoryCanonical s.requestReset := by
  cases hrun : s.run with
  | false =>
    have hfont : 0 + (font s.glyphs).length ≤ Config.memSize := by rw [font_length]; decide
    rw [State.requestReset_of_stopped hrun, MemoryCanonical, State.reinitialise_mem]
    exact Memory.wf_writeBytes s.mem 0 (font s.glyphs) hfont hs
  | true => rwa [State.requestReset_of_running hrun]

theorem deliver_keeps_memory_canonical {e : Event} {s t : State} (hs : MemoryCanonical s)
    (h : deliver e s = .next t) : MemoryCanonical t := by
  cases e with
  | instrTick => exact instrTick_keeps_memory_canonical hs h
  | timerTick => cases h; rw [State.timerTick_eq]; exact hs
  | setKey k pressed => cases h; rw [State.deliverKey_eq]; exact hs
  | load bytes => cases h; exact loadProgram_keeps_memory_canonical hs bytes
  | reset => cases h; exact requestReset_keeps_memory_canonical hs
  | start | stop | snapshot => cases h; exact hs

/-- Settles O47: taking the event off the queue leaves memory, and performing it keeps the canonical form. -/
theorem everyStepKeepsMemoryCanonical : Obligations.EveryStepKeepsMemoryCanonical :=
  fun _ _ hs hstep => deliver_keeps_memory_canonical (s := State.dequeue _) hs hstep

/-- Settles O48: nothing is listed at reset, and at power-on the font and MEM_INIT are written inside the memory. -/
theorem resetMemoryIsCanonical : Obligations.ResetMemoryIsCanonical := by
  refine ⟨State.reset_memory_wf, fun g init => ?_⟩
  rw [MemoryCanonical, State.powerOn_mem]
  exact Memory.wf_writeBytes [] 0 _ (by simp [Config.memSize]) rfl

end Sys2Proof.Machine
end

section
/-! PROOFS. Which words are unrecognized (30_encoding.md R67, R70): the match of each row compares the operation nibble
and at most the low byte or the low nibble. -/

namespace Sys2Proof

theorem and_mask_eq_iff {w p : Word} (hp : p &&& 0xF000 = p) :
    w &&& 0xF000 = p ↔ w.extractLsb' 12 4 = p.extractLsb' 12 4 := by
  refine ⟨opNibble_of_mask, fun h => ?_⟩
  calc w &&& 0xF000 = wordXK (w.extractLsb' 12 4) 0 0 := (wordXK_eq_iff.mp (wordXK_fields w)).1
    _ = wordXK (p.extractLsb' 12 4) 0 0 := by rw [h]
    _ = p &&& 0xF000 := (wordXK_eq_iff.mp (wordXK_fields p)).1.symm
    _ = p := hp

theorem and_mask_low_eq_iff {w p : Word} (hp : p &&& 0xF0FF = p) : w &&& 0xF0FF = p ↔
    w.extractLsb' 12 4 = p.extractLsb' 12 4 ∧ w.extractLsb' 0 8 = p.extractLsb' 0 8 := by
  refine ⟨fields_of_mask_low, fun ⟨hop, hsel⟩ => ?_⟩
  calc w &&& 0xF0FF = wordXK (w.extractLsb' 12 4) 0 (w.extractLsb' 0 8) :=
        (wordXK_selector_eq_iff.mp (wordXK_fields w)).1
    _ = wordXK (p.extractLsb' 12 4) 0 (p.extractLsb' 0 8) := by rw [hop, hsel]
    _ = p &&& 0xF0FF := (wordXK_selector_eq_iff.mp (wordXK_fields p)).1.symm
    _ = p := hp

theorem and_mask_nibble_eq_iff {w p : Word} (hp : p &&& 0xF00F = p) : w &&& 0xF00F = p ↔
    w.extractLsb' 12 4 = p.extractLsb' 12 4 ∧ w.extractLsb' 0 4 = p.extractLsb' 0 4 := by
  refine ⟨fields_of_mask_nibble, fun ⟨hop, hsel⟩ => ?_⟩
  calc w &&& 0xF00F = wordXYN (w.extractLsb' 12 4) 0 0 (w.extractLsb' 0 4) :=
        (wordXYN_selector_eq_iff.mp (wordXYN_fields w)).1
    _ = wordXYN (p.extractLsb' 12 4) 0 0 (p.extractLsb' 0 4) := by rw [hop, hsel]
    _ = p &&& 0xF00F := (wordXYN_selector_eq_iff.mp (wordXYN_fields p)).1.symm
    _ = p := hp

/-- Settles O4: no row is selected; by the operation nibble, families 0, E and F look at the low byte and family 8 at
the low nibble, and each of the other twelve has a row that every word of it selects. -/
theorem unrecognizedWordsAreExactlyThese : Obligations.UnrecognizedWordsAreExactlyThese := by
  intro w
  rw [decodeWord_unrecognized_iff, and_iff_right rfl]
  simp (disch := decide) only [rows, rowsFlow, rowsAlu, rowsMid, rowsF, List.cons_append, List.nil_append,
    List.forall_mem_cons, Row.selects, beq_eq_false_iff_ne, ne_eq, and_mask_eq_iff, and_mask_low_eq_iff,
    and_mask_nibble_eq_iff, BitVec.reduceExtractLsb']
  generalize w.extractLsb' 12 4 = op, w.extractLsb' 0 8 = low, w.extractLsb' 0 4 = sel
  by_cases h0 : op = 0#4
  · simp [h0]
  by_cases h8 : op = 8#4
  · simp [h8]
    revert sel
    decide
  by_cases hE : op = 14#4
  · simp [hE]
  by_cases hF : op = 15#4
  · simp [hF]
  have hfull : op ∈ ([1, 2, 3, 4, 5, 6, 7, 9, 10, 11, 12, 13] : List Nibble) := by
    revert op
    decide
  simpa [h0, h8, hE, hF, or_iff_not_imp_left] using hfull

/-- Settles O5: each of the two selectors is its row's match, and any other low byte is on O4's list. -/
theorem familyEIsDispatchedOnItsLowByte : Obligations.FamilyEIsDispatchedOnItsLowByte := by
  intro w hop
  split
  · next hsel => exact (decodesFrom_skp _ w).mpr ⟨(and_mask_low_eq_iff rfl).mpr ⟨hop, hsel⟩, rfl⟩
  split
  · next hsel => exact (decodesFrom_sknp _ w).mpr ⟨(and_mask_low_eq_iff rfl).mpr ⟨hop, hsel⟩, rfl⟩
  · next hskp hsknp =>
    refine (unrecognizedWordsAreExactlyThese w).mpr (.inr (.inr (.inl ⟨hop, ?_⟩)))
    simpa using ⟨hskp, hsknp⟩

/-- Settles O1: nineteen words are the encodings of their instructions, and family 8 has no row with selector 8. -/
theorem wordsOfEveryFamilyDecode : Obligations.WordsOfEveryFamilyDecode :=
  ⟨decodeWord_encode (.cls 0), decodeWord_encode (.ret 0b1010), decodeWord_encode (.jp 0b101010111100),
    decodeWord_encode (.call 0b111100000000), decodeWord_encode (.seImm 0b1010 0b01111111),
    decodeWord_encode (.sneImm 0b1011 0b00000000), decodeWord_encode (.seReg 0b0001 0b0010 0b1111),
    decodeWord_encode (.ldImm 0b1100 0b00110011), decodeWord_encode (.addImm 0b1101 0b11111111),
    decodeWord_encode (.subReg 0b0001 0b0010), decodeWord_encode (.shl 0b0001 0b0010),
    decodeWord_encode (.sneReg 0b1010 0b1011 0b0111), decodeWord_encode (.ldI 0b000100100011),
    decodeWord_encode (.jpV0 0b001100000000), decodeWord_encode (.rnd 0b0011 0b00001111),
    decodeWord_encode (.drw 0b0001 0b0010 0b0101), decodeWord_encode (.sknp 0b0010),
    decodeWord_encode (.ldVxK 0b0001), decodeWord_encode (.ldMemVx 0b0001),
    (unrecognizedWordsAreExactlyThese _).mpr (.inr (.inl (by decide)))⟩

end Sys2Proof
end

section
/-! PROOFS. Power-on and Reset (10_state.md, 70_reset_and_hazards.md R200 to R203). -/

namespace Sys2Proof.Machine

theorem fontLoaded_powerOn (g : Config.Glyphs) (init : Config.MemInit) : FontLoaded g (State.powerOn g init).mem :=
  fontLoaded_of_read fun a ha => by rw [State.read_powerOn_mem g init a (by omega), if_pos ha]

/-- MEM_INIT begins where the font ends. -/
theorem read_powerOn_mem_above_font (g : Config.Glyphs) (init : Config.MemInit) (k : Fin 4016) :
    (State.powerOn g init).mem.read (0x50 + k.val) = init[k] := by
  rw [State.read_powerOn_mem g init _ (by omega), if_neg (by omega), Nat.add_sub_cancel_left]
  simp

/-- With the default parameters every byte is one that an unlisted address reads as. -/
theorem powerOn_defaults : State.powerOn defaultGlyphs defaultMemInit = State.reset := by
  have hmem : (State.powerOn defaultGlyphs defaultMemInit).mem = [] := by
    rw [State.powerOn_mem]
    refine Memory.writeBytes_nil 0 _ fun k _ => ?_
    rw [Nat.zero_add, initialByte]
    by_cases hk : k < 0x50
    · rw [if_pos hk, List.getD_append _ _ _ _ (by simpa using hk)]
    · rw [if_neg hk, List.getD_append_right _ _ _ _ (by simpa using hk)]
      rw [defaultMemInit, Vector.toList_replicate, List.getD_eq_getElem?_getD,
        List.getElem?_getD_replicate_default_eq]
  rw [State.powerOn_eq, hmem]
  rfl

/-- Settles O6: every field but memory is as at reset; memory holds the font and then MEM_INIT. -/
theorem powerOnState : Obligations.PowerOnState := by
  refine ⟨fun g init => ⟨State.powerOn g init, rfl, ?_⟩, powerOn_defaults⟩
  refine ⟨fun r => ?_, State.powerOn_pc g init, State.powerOn_i g init, fun k => ?_, State.powerOn_sp g init,
    State.powerOn_dt g init, State.powerOn_st g init, fun p => ?_, fun k => ?_, State.powerOn_lastKey g init,
    State.powerOn_run g init, State.powerOn_wait g init, State.powerOn_waitReg g init, fontLoaded_powerOn g init,
    read_powerOn_mem_above_font g init, State.powerOn_draws g init, State.powerOn_pending g init,
    State.powerOn_outputs g init, State.powerOn_glyphs g init⟩
  · rw [State.reg_powerOn, State.reg_reset]
  · rw [State.slot_powerOn, State.slot_reset]
  · rw [State.powerOn_display]
    exact Display.get_blank p
  · rw [State.key_powerOn, State.key_reset]

/-- Settles O8: an accepted `Reset` answers the reinitialised state. -/
theorem resetReinitialisesEverythingButProgramMemory :
    Obligations.ResetReinitialisesEverythingButProgramMemory := by
  intro s rest hpending hrun
  refine ⟨s.dequeue.reinitialise, step_reset_of_stopped hpending hrun, State.reg_reinitialise _,
    State.reinitialise_pc _, State.reinitialise_i _, State.reinitialise_sp _, State.slot_reinitialise _,
    State.reinitialise_dt _, State.reinitialise_st _, fun p => ?_, State.key_reinitialise _,
    State.reinitialise_lastKey _, State.reinitialise_wait _, State.reinitialise_waitReg _, ?_, ?_, fun a ha => ?_,
    State.reinitialise_draws _, ?_, State.reinitialise_outputs _, State.reinitialise_glyphs _⟩
  · rw [State.reinitialise_display]
    exact Display.get_blank p
  · rw [State.reinitialise_run, State.dequeue_run, hrun]
  · refine fontLoaded_of_read fun a ha => ?_
    rw [State.reinitialise_mem, State.read_reinitialise_mem, if_pos ha]
    rfl
  · rw [State.reinitialise_mem, State.read_reinitialise_mem, if_neg (by omega)]
    rfl
  · rw [State.reinitialise_pending, State.dequeue_pending, hpending, List.tail_cons]

/-- Settles O9: a `Reset` from Running is the identity, so only the queue changes. -/
theorem resetIsIgnoredWhileRunning : Obligations.ResetIsIgnoredWhileRunning := by
  intro s rest hpending hrun
  have hdequeue : s.dequeue = { s with pending := rest } := by rw [State.dequeue, hpending, List.tail_cons]
  calc step s = .next s.dequeue.requestReset := step_of_nextEvent (State.nextEvent_of_cons hpending)
    _ = .next s.dequeue := by rw [State.requestReset_of_running (s := s.dequeue) hrun]
    _ = .next { s with pending := rest } := by rw [hdequeue]

end Sys2Proof.Machine
end

section
/-! PROOFS. The events other than `InstrTick` and `Reset` (60_exceptions.md R179 to R186): the frame of each, and what
each leaves in the parts it may change. -/

namespace Sys2Proof.Machine

/-! The event leaves the queue. -/

theorem step_of_pending {s : State} {e : Event} {rest : List Event} (h : s.pending = e :: rest) :
    step s = deliver e s.dequeue :=
  step_of_nextEvent (State.nextEvent_of_cons h)

theorem State.dequeue_pending_of_cons {s : State} {e : Event} {rest : List Event} (h : s.pending = e :: rest) :
    s.dequeue.pending = rest := by
  rw [State.dequeue_pending, h, List.tail_cons]

theorem changesOnly_dequeue (s : State) : ChangesOnly s s.dequeue [.pending] := by
  intro p hp
  cases p with
  | pending => exact absurd List.mem_cons_self hp
  | _ => rfl

/-- A change after the event has left the queue. -/
theorem ChangesOnly.of_dequeue {s t : State} {ws : List Part} (h : ChangesOnly s.dequeue t ws) :
    ChangesOnly s t (ws ++ [.pending]) :=
  ((changesOnly_dequeue s).trans h).mono (List.perm_append_comm (l₁ := [Part.pending])).subset

/-! The frame of each event. -/

theorem changesOnly_emit (s : State) (o : Output) : ChangesOnly s (s.emit o) [.outputs] := by
  intro p hp
  cases p with
  | outputs => exact absurd List.mem_cons_self hp
  | _ => rfl

theorem changesOnly_start (s : State) : ChangesOnly s s.start [.run] := by
  intro p hp
  cases p with
  | run => exact absurd List.mem_cons_self hp
  | _ => rfl

theorem changesOnly_stop (s : State) : ChangesOnly s s.stop [.run] := by
  intro p hp
  cases p with
  | run => exact absurd List.mem_cons_self hp
  | _ => rfl

theorem changesOnly_timerTick (s : State) : ChangesOnly s s.timerTick [.dt, .st] := by
  rw [State.timerTick_eq]
  intro p hp
  cases p with
  | dt | st => simp at hp
  | _ => rfl

theorem changesOnly_setKeyBit (s : State) (k : KeyIdx) (c : Bool) : ChangesOnly s (s.setKeyBit k c) [.key k] := by
  intro p hp
  cases p with
  | key j =>
    have hne : j ≠ k := fun he => hp (by simp [he])
    exact (State.key_setKeyBit s k c j).trans (if_neg hne)
  | _ => rfl

theorem changesOnly_setLastKey (s : State) (l : Option KeyIdx) : ChangesOnly s { s with lastKey := l } [.lastKey] := by
  intro p hp
  cases p with
  | lastKey => exact absurd List.mem_cons_self hp
  | _ => rfl

theorem changesOnly_deliverKey (s : State) (k : KeyIdx) (pressed : Bool) :
    ChangesOnly s (s.deliverKey k pressed) [.key k, .lastKey] := by
  rw [State.deliverKey_eq]
  exact (changesOnly_setKeyBit s k pressed).trans (changesOnly_setLastKey _ _)

theorem State.key_deliverKey (s : State) (k : KeyIdx) (pressed : Bool) : (s.deliverKey k pressed).key k = pressed := by
  rw [State.deliverKey_eq]
  exact (State.key_setKeyBit s k pressed k).trans (if_pos rfl)

/-- Settles O10: each of the three events is one write, after the event has left the queue. -/
theorem startStopAndSnapshot : Obligations.StartStopAndSnapshot := by
  refine ⟨fun s rest h => ?_, fun s rest h => ?_, fun s rest h => ?_⟩
  · exact ⟨s.dequeue.start, step_of_pending h, State.start_run _, State.dequeue_pending_of_cons h,
      (changesOnly_start _).of_dequeue⟩
  · exact ⟨s.dequeue.stop, step_of_pending h, State.stop_run _, State.dequeue_pending_of_cons h,
      (changesOnly_stop _).of_dequeue⟩
  · exact ⟨s.dequeue.takeSnapshot, step_of_pending h, State.takeSnapshot_outputs _, State.dequeue_pending_of_cons h,
      (changesOnly_emit _ _).of_dequeue⟩

/-- Settles O11: while Running both timers count down, while Stopped both are written with what they hold. -/
theorem timerTickCountsDownToZero : Obligations.TimerTickCountsDownToZero := by
  intro s rest h
  have hframe : ChangesOnly s s.dequeue.timerTick [.dt, .st, .pending] := (changesOnly_timerTick _).of_dequeue
  refine ⟨s.dequeue.timerTick, step_of_pending h, ?_, hframe, fun hrun => ?_, fun hrun => ?_⟩
  · rw [State.timerTick_eq]
    exact State.dequeue_pending_of_cons h
  · simp [State.timerTick_eq, hrun, countDown_toNat]
  · simp [State.timerTick_eq, hrun]

/-- Settles O12: the key is latched, and LASTKEY is written under the condition of a press transition. -/
theorem setKeyLatchesAndRecordsPresses : Obligations.SetKeyLatchesAndRecordsPresses := by
  intro s k pressed rest h
  refine ⟨s.dequeue.deliverKey k pressed, step_of_pending h, State.key_deliverKey _ k pressed, ?_, ?_,
    (changesOnly_deliverKey _ k pressed).of_dequeue⟩
  · rw [State.deliverKey_eq]
    rfl
  · rw [State.deliverKey_eq]
    exact State.dequeue_pending_of_cons h

/-! Load. -/

/-- `Load` reports its result, and it changes memory besides. -/
theorem samePart_loadProgram {s : State} {bytes : List Byte} {p : Part} (hbyte : ∀ a, p ≠ .byte a)
    (hout : p ≠ .outputs) : SamePart s (s.loadProgram bytes) p := by
  rw [State.loadProgram_eq]
  cases p with
  | byte a => exact absurd rfl (hbyte a)
  | outputs => exact absurd rfl hout
  | _ => rfl

theorem State.loadProgram_of_refused {s : State} {bytes : List Byte} (h : s.acceptsLoad bytes = false) :
    s.loadProgram bytes = s.emit (.loadResult false) := by
  rw [State.loadProgram, h]
  rfl

/-- Settles O13: an accepted `Load` replaces the program region, a refused one only reports. -/
theorem loadFillsTheProgramRegionOrFails : Obligations.LoadFillsTheProgramRegionOrFails := by
  intro s bytes rest h
  refine ⟨s.dequeue.loadProgram bytes, step_of_pending h, ?_, fun haccept => ?_, fun hrefuse => ?_⟩
  · rw [State.loadProgram_eq]
    exact State.dequeue_pending_of_cons h
  · have hload : s.dequeue.acceptsLoad bytes = true := (State.acceptsLoad_iff _ bytes).mpr haccept
    have hmem : (s.dequeue.loadProgram bytes).mem = s.mem.replaceProgram bytes := by
      rw [State.loadProgram_eq, hload]
      rfl
    refine ⟨?_, fun a hlo hhi => ?_, fun a hlo => ?_, fun p hbyte hp => ?_⟩
    · rw [State.loadProgram_eq, hload]
      rfl
    · rw [hmem, Memory.read_replaceProgram _ _ haccept.2.2 a hhi]
      exact if_neg (Nat.not_lt.mpr hlo)
    · rw [hmem, Memory.read_replaceProgram _ _ haccept.2.2 a (hlo.trans (by decide))]
      exact if_pos hlo
    · have hpending : p ∉ [Part.pending] := fun hmem => hp (List.mem_cons_of_mem _ hmem)
      have hout : p ≠ .outputs := fun he => hp (by simp [he])
      exact samePart_trans (changesOnly_dequeue s p hpending) (samePart_loadProgram hbyte hout)
  · have hload : s.dequeue.acceptsLoad bytes = false :=
      Bool.eq_false_iff.mpr (mt (State.acceptsLoad_iff _ bytes).mp hrefuse)
    rw [State.loadProgram_of_refused hload]
    exact ⟨State.emit_outputs _ _, (changesOnly_emit _ _).of_dequeue⟩

end Sys2Proof.Machine
end

section
/-! PROOFS. The cases of the instruction cycle, each with what it leaves (40_instruction_cycle.md R81 to R85). -/

namespace Sys2Proof.Machine

theorem wordOfBytes_toNat (hi lo : Byte) : (wordOfBytes hi lo).toNat = hi.toNat * 256 + lo.toNat := by
  rw [wordOfBytes, BitVec.toNat_append, ← Nat.shiftLeft_add_eq_or_of_lt lo.isLt, Nat.shiftLeft_eq]

/-- The word at PC, high byte first, addresses modulo 4096 (20_memory.md R43, R44). -/
theorem State.fetch16_toNat (s : State) : s.fetch16.toNat =
    (s.mem.read (s.pc.toNat % 4096)).toNat * 256 + (s.mem.read ((s.pc.toNat + 1) % 4096)).toNat := by
  have hnext : memIndex (s.pc + 1) = (s.pc.toNat + 1) % 4096 := by
    simp [memIndex, Config.memSize]
  rw [State.fetch16, wordOfBytes_toNat, State.memRead, State.memRead, hnext]
  rfl

/-- The step of a core that is Running and in no key wait, whose word at PC decodes. -/
theorem step_of_decode {s : State} {i : Instr} (hevent : s.nextEvent = .instrTick) (hrun : s.run = true)
    (hwait : s.wait = false) (hdecode : decodeWord s.fetch16 = .instr i) : step s = exec i s.dequeue := by
  obtain ⟨-, -, hcycle⟩ := instrTickIsOneInstructionCycle s hevent
  rw [hcycle hrun hwait, hdecode]

/-- Settles O15: the two bytes make the fetched word. -/
theorem stepRunsTheDecodedInstruction : Obligations.StepRunsTheDecodedInstruction := by
  intro s w i hevent hrun hwait hbytes hdecode
  have hfetch : s.fetch16 = w := BitVec.eq_of_toNat_eq (s.fetch16_toNat.trans hbytes.symm)
  exact step_of_decode hevent hrun hwait (hfetch.symm ▸ hdecode)

/-- Settles O16: the word reported is the fetched one, and the report and the advance are all that is done. -/
theorem unrecognizedWordIsATwoByteNoOp : Obligations.UnrecognizedWordIsATwoByteNoOp := by
  intro s w hevent hrun hwait hdecode
  obtain ⟨hw, -⟩ := decodeWord_unrecognized_iff.mp hdecode
  have hstep : step s = .next (s.dequeue.passUnrecognized w) := by
    obtain ⟨-, -, hcycle⟩ := instrTickIsOneInstructionCycle s hevent
    rw [hcycle hrun hwait, hdecode]
  have hframe : ChangesOnly s.dequeue (s.dequeue.passUnrecognized w) [.outputs, .pc] := (changesOnly_emit _ _).advance
  exact ⟨_, hstep, hw, rfl, rfl, rfl, hframe.of_dequeue.mono (List.Perm.swap Part.pc Part.outputs [.pending]).subset⟩

theorem changesOnly_pollKey (s : State) : ChangesOnly s s.pollKey [.reg s.waitReg, .lastKey, .wait] := by
  cases hkey : s.lastKey with
  | none =>
    rw [State.pollKey_none hkey]
    exact fun p _ => samePart_refl s p
  | some k =>
    have hend : ChangesOnly s { s with lastKey := none, wait := false } [.lastKey, .wait] := by
      intro p hp
      cases p with
      | lastKey | wait => simp at hp
      | _ => rfl
    rw [State.pollKey_some hkey]
    exact (hend.trans (changesOnly_setReg _ _ _)).mono (List.perm_append_comm (l₁ := [Part.lastKey, .wait])).subset

/-- A poll that finds a press stores it in the register the wait is for. -/
theorem State.reg_pollKey_of_some {s : State} {k : KeyIdx} (h : s.lastKey = some k) :
    s.pollKey.reg s.waitReg = k.setWidth 8 := by
  rw [State.pollKey_some h, State.reg_setReg, if_pos rfl]

/-- Settles O17: the step is the poll, which does nothing while no press is recorded. -/
theorem pollStoresTheKeyAndEndsTheWait : Obligations.PollStoresTheKeyAndEndsTheWait := by
  intro s hevent hrun hwait
  obtain ⟨-, hpoll, -⟩ := instrTickIsOneInstructionCycle s hevent
  rw [hpoll hrun hwait]
  refine ⟨fun hnone => ?_, fun k hsome => ⟨_, rfl, ?_, ?_⟩⟩
  · rw [State.pollKey_none (s := s.dequeue) hnone]
  · have hreg : s.dequeue.pollKey.reg s.waitReg = k.setWidth 8 := State.reg_pollKey_of_some (s := s.dequeue) hsome
    rw [hreg, BitVec.toNat_setWidth_of_le (by decide)]
  · have hframe : ChangesOnly s s.dequeue.pollKey [.reg s.waitReg, .lastKey, .wait, .pending] :=
      (changesOnly_pollKey s.dequeue).of_dequeue
    rw [State.pollKey_some (s := s.dequeue) hsome] at hframe ⊢
    exact ⟨rfl, rfl, rfl, hframe⟩

end Sys2Proof.Machine
end

section
/-! PROOFS. Control transfer (41_flow.md R100, R102, R105 to R107) and nested calls (10_state.md R23 to R25). -/

namespace Sys2Proof.Machine

/-- Settles O20: the push writes the slot and SP, then PC takes the address. -/
theorem callPushesTheReturnAddress : Obligations.CallPushesTheReturnAddress := by
  intro nnn
  refine ⟨decodesFrom_call nnn, fun s => ⟨(s.push (s.pc + 2)).setPc (absAddr nnn), rfl, ?_, ?_, absAddr_toNat nnn,
    (changesOnly_push s _).trans (changesOnly_setPc _ _)⟩⟩
  · rw [State.slot_setPc, State.slot_push, if_pos rfl]
  · exact sat15_succ s.sp

/-- Settles O21: RET is the pop. -/
theorem retPopsIntoPc : Obligations.RetPopsIntoPc :=
  fun ign => ⟨decodesFrom_ret ign, fun s => ⟨s.popToPc, rfl, sat15_pred s.sp, rfl, changesOnly_popToPc s⟩⟩

/-- Settles O23: SE and SNE are the same skip, under the test and under its negation. -/
theorem skipsOnTwoRegisters : Obligations.SkipsOnTwoRegisters := by
  intro x y ign
  refine ⟨decodesFrom_seReg x y ign, decodesFrom_sneReg x y ign, fun s => ⟨?_, ?_⟩⟩
  · refine ⟨(s.skipIf (s.reg x == s.reg y)).advance, rfl, ?_, changesOnly_skipIf_advance s _⟩
    rw [State.skipIf_advance_pc]
    simp
  · refine ⟨(s.skipIf (s.reg x != s.reg y)).advance, rfl, ?_, changesOnly_skipIf_advance s _⟩
    rw [State.skipIf_advance_pc]
    simp

/-- Settles O24: the largest sum, 0xFFF + 0xFF, is below 65536. -/
theorem jpV0AddsV0 : Obligations.JpV0AddsV0 := by
  intro nnn
  refine ⟨decodesFrom_jpV0 nnn, fun s => ⟨s.setPc (absAddr nnn + (s.reg 0).setWidth 16), rfl, ?_,
    changesOnly_setPc s _⟩⟩
  have hnnn : nnn.toNat < 4096 := nnn.isLt
  have hv0 : (s.reg 0).toNat < 256 := (s.reg 0).isLt
  rw [State.setPc_pc, BitVec.toNat_add, absAddr_toNat, BitVec.toNat_setWidth_of_le (by decide)]
  omega

/-- The key's number is the value modulo 16 (45_keys_timers.md R166). -/
theorem State.keyIndex_eq (s : State) (x : RegIdx) : s.keyIndex x = BitVec.ofNat 4 ((s.reg x).toNat % 16) :=
  BitVec.eq_of_toNat_eq (by simp [State.keyIndex])

/-- Settles O42: SKP and SKNP are the same skip, under the test of one key and under its negation. -/
theorem skipsOnAKey : Obligations.SkipsOnAKey := by
  intro x
  refine ⟨decodesFrom_skp x, decodesFrom_sknp x, fun s => ?_⟩
  rw [← State.keyIndex_eq]
  refine ⟨⟨(s.skipIf (s.key (s.keyIndex x))).advance, rfl, changesOnly_skipIf_advance s _, ?_⟩,
    ⟨(s.skipIf (!s.key (s.keyIndex x))).advance, rfl, changesOnly_skipIf_advance s _, ?_⟩⟩
  · rw [State.skipIf_advance_pc]
  · rw [State.skipIf_advance_pc]
    cases s.key (s.keyIndex x) <;> rfl

/-! Sequences of instructions. -/

theorem execAll_cons {i : Instr} {is : List Instr} {s t : State} (h : exec i s = .next t) :
    execAll (i :: is) s = execAll is t := by
  rw [execAll, h]

theorem execAll_append {is js : List Instr} {s t : State} (h : execAll is s = .next t) :
    execAll (is ++ js) s = execAll js t := by
  induction is generalizing s with
  | nil => cases h; rfl
  | cons i is ih =>
    obtain ⟨u, hu⟩ := exec_answers_next i s
    rw [execAll_cons hu] at h
    rw [List.cons_append, execAll_cons hu, ih h]

/-- Calls that keep SP at most 15 and as many returns: SP is as before, the slots below it are untouched, and PC is back
behind the first call. -/
theorem nested_calls_return (nnns : List Addr12) (s : State) (h : s.sp.toNat + nnns.length ≤ 15) :
    ∃ t, execAll (nnns.map Instr.call ++ List.replicate nnns.length (Instr.ret 0)) s = .next t ∧
      t.sp = s.sp ∧ (∀ k : BitVec 4, k.toNat < s.sp.toNat → t.slot k = s.slot k) ∧ (nnns ≠ [] → t.pc = s.pc + 2) := by
  induction nnns generalizing s with
  | nil => exact ⟨s, rfl, rfl, fun _ _ => rfl, fun hne => absurd rfl hne⟩
  | cons nnn nnns ih =>
    rw [List.length_cons] at h
    obtain ⟨-, hcall⟩ := callPushesTheReturnAddress nnn
    obtain ⟨u, hu, huslot, husp, -, huframe⟩ := hcall s
    have husp : u.sp.toNat = s.sp.toNat + 1 := by omega
    obtain ⟨t, ht, htsp, htslot, -⟩ := ih u (by omega)
    obtain ⟨-, hret⟩ := retPopsIntoPc 0
    obtain ⟨r, hr, hrsp, hrpc, hrframe⟩ := hret t
    have hrsp : r.sp = s.sp := BitVec.eq_of_toNat_eq (by rw [hrsp, htsp, husp, Nat.add_sub_cancel])
    refine ⟨r, ?_, hrsp, fun k hk => ?_, fun _ => ?_⟩
    · rw [List.map_cons, List.cons_append, execAll_cons hu, List.length_cons, List.replicate_succ', ← List.append_assoc,
        execAll_append ht, execAll_cons hr]
      rfl
    · calc r.slot k = t.slot k := hrframe (.slot k) (by simp)
        _ = u.slot k := htslot k (by omega)
        _ = s.slot k := huframe (.slot k) (by simp; rintro rfl; exact absurd hk (Nat.lt_irrefl _))
    · calc r.pc = t.slot s.sp := by rw [hrpc, hrsp]
        _ = u.slot s.sp := htslot s.sp (by omega)
        _ = s.pc + 2 := huslot

/-- Settles O55: the calls and returns of the lemma above. -/
theorem fifteenNestedCallsReturn : Obligations.FifteenNestedCallsReturn := by
  intro s nnns hne hlen
  obtain ⟨t, ht, hsp, -, hpc⟩ := nested_calls_return nnns s hlen
  exact ⟨t, ht, hpc hne, hsp⟩

/-- Settles O56: with SP saturated at 15 the call writes slot 15 and the return reads slot 14. -/
theorem sixteenthNestedCallLosesItsReturnAddress : Obligations.SixteenthNestedCallLosesItsReturnAddress := by
  intro s nnn hsp
  obtain ⟨-, hcall⟩ := callPushesTheReturnAddress nnn
  obtain ⟨u, hu, huslot, husp, -, huframe⟩ := hcall s
  obtain ⟨-, hret⟩ := retPopsIntoPc 0
  obtain ⟨t, ht, htsp, htpc, htframe⟩ := hret u
  have hsp14 : t.sp = 14 := BitVec.eq_of_toNat_eq (by rw [htsp, husp, hsp]; rfl)
  refine ⟨t, ?_, ?_, hsp14, ?_⟩
  · rw [execAll_cons hu, execAll_cons ht]
    rfl
  · rw [htpc, hsp14]
    exact huframe (.slot 14) (by simp [hsp])
  · calc t.slot 15 = u.slot 15 := htframe (.slot 15) (by simp)
      _ = s.pc + 2 := hsp ▸ huslot

end Sys2Proof.Machine
end

section
/-! PROOFS. The ALU (42_alu.md R121 to R131). -/

namespace Sys2Proof.Machine

/-! A write of one register, and a result with its flag, followed by the advance. -/

theorem State.reg_setReg_advance (s : State) (x : RegIdx) (b : Byte) : (s.setReg x b).advance.reg x = b := by
  rw [State.reg_advance, State.reg_setReg, if_pos rfl]

theorem State.reg_setRegAndFlag_advance_of_ne (s : State) {x : RegIdx} (b : Byte) (c : Bool) (hx : x ≠ flagReg) :
    (s.setRegAndFlag x b c).advance.reg x = b := by
  rw [State.reg_advance, State.reg_setRegAndFlag, if_neg hx, if_pos rfl]

theorem State.flag_setRegAndFlag_advance (s : State) (x : RegIdx) (b : Byte) (c : Bool) :
    (s.setRegAndFlag x b c).advance.reg 0xF = flagByte c := by
  rw [State.reg_advance, State.reg_setRegAndFlag]
  exact if_pos rfl

theorem flagByte_decide_toNat (p : Prop) [Decidable p] : (flagByte (decide p)).toNat = if p then 1 else 0 := by
  by_cases h : p <;> simp [flagByte, h]

/-- Settles O26: the bytes' own addition is the one modulo 256. -/
theorem addImmWrapsWithoutFlag : Obligations.AddImmWrapsWithoutFlag := by
  intro x kk
  refine ⟨decodesFrom_addImm x kk, fun s => ⟨(s.setReg x (s.reg x + kk)).advance, rfl, ?_, rfl,
    (changesOnly_setReg s x _).advance⟩⟩
  rw [State.reg_setReg_advance, BitVec.toNat_add]

/-- Settles O27: four register writes; the bitwise operations are read off bit by bit. -/
theorem copyAndLogicOfTwoRegisters : Obligations.CopyAndLogicOfTwoRegisters := by
  intro x y
  refine ⟨decodesFrom_ldReg x y, decodesFrom_orReg x y, decodesFrom_andReg x y, decodesFrom_xorReg x y, fun s => ?_⟩
  refine ⟨⟨(s.setReg x (s.reg y)).advance, rfl, State.reg_setReg_advance s x _, rfl,
      (changesOnly_setReg s x _).advance⟩,
    ⟨(s.setReg x (s.reg x ||| s.reg y)).advance, rfl, rfl, (changesOnly_setReg s x _).advance, fun k => ?_⟩,
    ⟨(s.setReg x (s.reg x &&& s.reg y)).advance, rfl, rfl, (changesOnly_setReg s x _).advance, fun k => ?_⟩,
    ⟨(s.setReg x (s.reg x ^^^ s.reg y)).advance, rfl, rfl, (changesOnly_setReg s x _).advance, fun k => ?_⟩⟩
  · rw [State.reg_setReg_advance, BitVec.getLsbD_or]
  · rw [State.reg_setReg_advance, BitVec.getLsbD_and]
  · rw [State.reg_setReg_advance, BitVec.getLsbD_xor]

/-- What the flag instructions share: the result, unless the flag takes its place, then the flag and the advance
(40_instruction_cycle.md R87). -/
theorem exec_result_and_flag {i : Instr} {s : State} {x : RegIdx} {b : Byte} {c : Bool} {f : Nat} {P : Byte → Prop}
    (hexec : exec i s = .next (s.setRegAndFlag x b c).advance) (hresult : P b) (hflag : (flagByte c).toNat = f) :
    ∃ t, exec i s = .next t ∧ (x ≠ 0xF → P (t.reg x)) ∧ (t.reg 0xF).toNat = f ∧ t.pc = s.pc + 2 ∧
      ChangesOnly s t [.reg x, .reg 0xF, .pc] := by
  refine ⟨_, hexec, fun hx => ?_, ?_, rfl, (changesOnly_setRegAndFlag s x b c).advance⟩
  · rwa [State.reg_setRegAndFlag_advance_of_ne s b c hx]
  · rw [State.flag_setRegAndFlag_advance, hflag]

/-- Settles O28: the carry is the comparison of the sum of the naturals with 255. -/
theorem addSetsCarry : Obligations.AddSetsCarry := by
  intro x y
  refine ⟨decodesFrom_addReg x y, fun s => ?_⟩
  exact exec_result_and_flag (P := fun v => v.toNat = ((s.reg x).toNat + (s.reg y).toNat) % 256) rfl
    (BitVec.toNat_add _ _) (flagByte_decide_toNat _)

/-- The difference of two bytes is the integers' difference modulo 256. -/
theorem toNat_sub_eq_emod (a b : Byte) : ((a - b).toNat : Int) = ((a.toNat : Int) - b.toNat) % 256 := by
  have ha : a.toNat < 256 := a.isLt
  have hb : b.toNat < 256 := b.isLt
  rw [BitVec.toNat_sub]
  omega

/-- Settles O29: SUBN is SUB with the operands exchanged. -/
theorem subAndSubnSetTheGreaterFlag : Obligations.SubAndSubnSetTheGreaterFlag := by
  intro x y
  refine ⟨decodesFrom_subReg x y, decodesFrom_subnReg x y, fun s => ⟨?_, ?_⟩⟩
  · exact exec_result_and_flag (P := fun v => (v.toNat : Int) = ((s.reg x).toNat - (s.reg y).toNat : Int) % 256) rfl
      (toNat_sub_eq_emod _ _) (flagByte_decide_toNat _)
  · exact exec_result_and_flag (P := fun v => (v.toNat : Int) = ((s.reg y).toNat - (s.reg x).toNat : Int) % 256) rfl
      (toNat_sub_eq_emod _ _) (flagByte_decide_toNat _)

/-! A shift by one halves or doubles the byte, and the flag is the bit it loses. -/

theorem ushiftRight_one_toNat (a : Byte) : (a >>> 1).toNat = a.toNat / 2 := by
  rw [BitVec.toNat_ushiftRight, Nat.shiftRight_one]

theorem shiftLeft_one_toNat (a : Byte) : (a <<< 1).toNat = 2 * a.toNat % 256 := by
  rw [BitVec.toNat_shiftLeft, Nat.shiftLeft_eq, Nat.pow_one, Nat.mul_comm]

theorem flagByte_shrFlag_toNat (a : Byte) : (flagByte (shrFlag a)).toNat = a.toNat % 2 := by
  revert a; decide

theorem flagByte_shlFlag_toNat (a : Byte) : (flagByte (shlFlag a)).toNat = a.toNat / 128 := by
  revert a; decide

/-- Settles O30: both shifts work on Vx in place. -/
theorem shiftsMoveTheLostBitToVF : Obligations.ShiftsMoveTheLostBitToVF := by
  intro x y
  refine ⟨decodesFrom_shr x y, decodesFrom_shl x y, fun s => ⟨?_, ?_⟩⟩
  · exact exec_result_and_flag (P := fun v => v.toNat = (s.reg x).toNat / 2) rfl
      (ushiftRight_one_toNat _) (flagByte_shrFlag_toNat _)
  · exact exec_result_and_flag (P := fun v => v.toNat = 2 * (s.reg x).toNat % 256) rfl
      (shiftLeft_one_toNat _) (flagByte_shlFlag_toNat _)

/-- Settles O31: the free byte is the one the count of draws names. -/
theorem rndMasksAFreeByte : Obligations.RndMasksAFreeByte := by
  intro x kk
  refine ⟨decodesFrom_rnd x kk, fun s => ⟨(s.setReg x (s.rnd &&& kk)).countDraw.advance, rfl, ?_, rfl, rfl,
    ((changesOnly_setReg s x _).trans (changesOnly_countDraw _)).advance⟩⟩
  rw [State.reg_advance, State.reg_countDraw, State.reg_setReg, if_pos rfl, State.rnd]

end Sys2Proof.Machine
end

section
/-! PROOFS. The address register, the timers and the start of a key wait (43_index_memory.md R141, R142,
45_keys_timers.md R162 to R165). -/

namespace Sys2Proof.Machine

/-- Settles O33: 16 bits of the sum are kept; the largest glyph address is 75. -/
theorem addIAndLdF : Obligations.AddIAndLdF := by
  intro x
  refine ⟨decodesFrom_addI x, decodesFrom_ldF x, fun s => ⟨?_, ?_⟩⟩
  · refine ⟨(s.setI (s.i + (s.reg x).setWidth 16)).advance, rfl, ?_, rfl, (changesOnly_setI s _).advance⟩
    rw [State.advance_i, State.setI_i, BitVec.toNat_add, BitVec.toNat_setWidth_of_le (by decide)]
  · refine ⟨(s.setI (glyphAddr (s.reg x))).advance, rfl, ?_, rfl, (changesOnly_setI s _).advance⟩
    rw [State.advance_i, State.setI_i, glyphAddr, BitVec.toNat_ofNat]
    omega

/-- Settles O43: one write each. -/
theorem timersAreReadAndWritten : Obligations.TimersAreReadAndWritten := by
  intro x
  refine ⟨decodesFrom_ldVxDt x, decodesFrom_ldDtVx x, decodesFrom_ldStVx x, fun s => ⟨?_, ?_, ?_⟩⟩
  · exact ⟨(s.setReg x s.dt).advance, rfl, State.reg_setReg_advance s x _, rfl, (changesOnly_setReg s x _).advance⟩
  · exact ⟨State.advance { s with dt := s.reg x }, rfl, rfl, rfl, (changesOnly_setDt s _).advance⟩
  · exact ⟨State.advance { s with st := s.reg x }, rfl, rfl, rfl, (changesOnly_setSt s _).advance⟩

/-- Settles O44: the executing cycle writes WAIT and WAITREG only. -/
theorem ldVxKBeginsTheWait : Obligations.LdVxKBeginsTheWait :=
  fun x => ⟨decodesFrom_ldVxK x, fun s => ⟨State.advance { s with wait := true, waitReg := x }, rfl, rfl, rfl, rfl,
    (changesOnly_beginWait s x).advance⟩⟩

/-- Settles O45: the first tick executes LD Vx, K, the second is the poll that finds the press. -/
theorem ldVxKCompletesInTwoTicks : Obligations.LdVxKCompletesInTwoTicks := by
  intro s x k hpending hrun hwait hdecode hkey
  obtain ⟨-, hbegin⟩ := ldVxKBeginsTheWait x
  obtain ⟨u, hu, huwait, hureg, hupc, huframe⟩ := hbegin s
  have hstep : step s = .next u := by
    rw [step_of_decode (State.nextEvent_of_nil hpending) hrun hwait hdecode, State.dequeue_of_nil hpending, hu]
  have hupending : u.pending = [] := (huframe .pending (by simp)).trans hpending
  have hurun : u.run = true := (huframe .run (by simp)).trans hrun
  have hukey : u.lastKey = some k := (huframe .lastKey (by simp)).trans hkey
  obtain ⟨-, hpoll⟩ := pollStoresTheKeyAndEndsTheWait u (State.nextEvent_of_nil hupending) hurun huwait
  obtain ⟨t, ht, htreg, htkey, htwait, htpending, htframe⟩ := hpoll k hukey
  rw [hureg] at htreg htframe
  refine ⟨t, ?_, htreg, htkey, htwait, (htframe .pc (by simp)).trans hupc, fun p hp => ?_⟩
  · rw [core_run_succ 1 hstep, core_run_succ 0 ht]
    rfl
  · by_cases hpwait : p = .wait
    · subst hpwait
      exact htwait.trans hwait.symm
    by_cases hppending : p = .pending
    · subst hppending
      exact htpending.trans (by rw [hupending, hpending]; rfl)
    · simp only [List.mem_cons, List.not_mem_nil, or_false, not_or] at hp
      obtain ⟨hpreg, hpkey, hpwaitReg, hppc⟩ := hp
      exact samePart_trans (huframe p (by simp [*])) (htframe p (by simp [*]))

end Sys2Proof.Machine
end

section
/-! PROOFS. The memory instructions (43_index_memory.md R143 to R145) and the order of a store before the next fetch
(20_memory.md R53). -/

namespace Sys2Proof.Machine

/-! The digits of a byte are bytes. -/

theorem bcdHundreds_toNat (b : Byte) : (bcdHundreds b).toNat = b.toNat / 100 := by
  revert b; decide

theorem bcdTens_toNat (b : Byte) : (bcdTens b).toNat = b.toNat / 10 % 10 := by
  revert b; decide

theorem bcdOnes_toNat (b : Byte) : (bcdOnes b).toNat = b.toNat % 10 := by
  revert b; decide

/-- Settles O34: the three addresses are different, so each byte is the digit last stored there. -/
theorem ldBStoresTheDigits : Obligations.LdBStoresTheDigits := by
  intro x
  refine ⟨decodesFrom_ldB x, fun s => ⟨(((s.memWrite (s.dataAddr 0) (bcdHundreds (s.reg x))).memWrite (s.dataAddr 1)
    (bcdTens (s.reg x))).memWrite (s.dataAddr 2) (bcdOnes (s.reg x))).advance, rfl, ?_, ?_, ?_, rfl,
    (changesOnly_memWrite_three s _ _ _).advance_cons⟩⟩
  all_goals simp only [State.advance_mem, State.memWrite_mem, Memory.read_write, memIndex_dataAddr, Nat.add_zero,
    if_true]
  · rw [if_neg (by omega), if_neg (by omega), bcdHundreds_toNat]
  · rw [if_neg (by omega), bcdTens_toNat]
  · rw [bcdOnes_toNat]

/-! The registers a block copy moves. -/

theorem lt_regCount_iff {r x : RegIdx} : r.toNat < regCount x ↔ r.toNat ≤ x.toNat := Nat.lt_succ_iff

theorem regCount_le (x : RegIdx) : regCount x ≤ 16 := x.isLt

/-- Settles O35: `storeRegs` up to and with `V[x]`. -/
theorem storeRegistersToMemory : Obligations.StoreRegistersToMemory := by
  intro x
  refine ⟨decodesFrom_ldMemVx x, fun s => ⟨(s.storeRegs (regCount x)).advance, rfl, fun r hr => ?_, ?_,
    (changesOnly_storeRegs s _).advance_cons⟩⟩
  · have hcount : regCount x ≤ 4096 := (regCount_le x).trans (by decide)
    rw [State.advance_mem, ← memIndex_dataAddr, State.storeRegs_read_inside s _ _ (lt_regCount_iff.mpr hr) hcount,
      BitVec.ofNat_toNat, BitVec.setWidth_eq]
  · rw [State.advance_pc, State.storeRegs_eq]

/-- Settles O36: `loadRegs` up to and with `V[x]`. -/
theorem loadRegistersFromMemory : Obligations.LoadRegistersFromMemory := by
  intro x
  refine ⟨decodesFrom_ldVxMem x, fun s => ⟨(s.loadRegs (regCount x)).advance, rfl, fun r hr => ?_, ?_,
    (changesOnly_loadRegs s _).advance_cons⟩⟩
  · rw [State.reg_advance, State.loadRegs_reg s _ (regCount_le x), if_pos (lt_regCount_iff.mpr hr), State.memRead,
      memIndex_dataAddr]
  · rw [State.advance_pc, State.loadRegs_eq]

/-- Settles O58: the two bytes at the new PC are the two stored ones. -/
theorem aStoreIsSeenByTheNextFetch : Obligations.AStoreIsSeenByTheNextFetch := by
  intro s hi
  obtain ⟨-, hstore⟩ := storeRegistersToMemory 1
  obtain ⟨t, ht, htmem, htpc, -⟩ := hstore s
  have hpc : t.pc = s.i := htpc.trans hi.symm
  have h0 : t.mem.read (s.i.toNat % 4096) = s.reg 0 := htmem 0 (by decide)
  have h1 : t.mem.read ((s.i.toNat + 1) % 4096) = s.reg 1 := htmem 1 (by decide)
  exact ⟨t, ht, hpc, by rw [State.fetch16_toNat, hpc, h0, h1]⟩

end Sys2Proof.Machine
end

section
/-! PROOFS. The display instructions and what a second draw does (44_display.md R153 to R156). -/

namespace Sys2Proof.Machine

/-- Settles O37: the display becomes the blank one. -/
theorem clsClearsEveryPixel : Obligations.ClsClearsEveryPixel :=
  fun ign => ⟨decodesFrom_cls ign, fun s => ⟨s.clearDisplay.advance, rfl, Display.get_blank, rfl,
    (changesOnly_setDisplay s _).advance⟩⟩

/-! The sprite of DRW is the bytes at I, addresses modulo 4096. -/

theorem State.spriteBytes_getD_read (s : State) (n : Nibble) {r : Nat} (h : r < n.toNat) :
    (s.spriteBytes n).getD r 0 = s.mem.read ((s.i.toNat + r) % 4096) := by
  rw [State.spriteBytes_getD s n r h, State.memRead, memIndex_dataAddr]

theorem spriteHits_spriteBytes_iff (s : State) (n : Nibble) (x0 y0 : Byte) (p : Pixel) :
    SpriteHits x0 y0 (fun r => (s.spriteBytes n).getD r 0) (s.spriteBytes n).length p ↔
      SpriteHits x0 y0 (fun r => s.mem.read ((s.i.toNat + r) % 4096)) n.toNat p := by
  rw [State.spriteBytes_length]
  exact ⟨spriteHits_congr fun r hr => s.spriteBytes_getD_read n hr,
    spriteHits_congr fun r hr => (s.spriteBytes_getD_read n hr).symm⟩

theorem State.spriteBytes_length_le (s : State) (n : Nibble) : (s.spriteBytes n).length ≤ 32 := by
  have hn : n.toNat < 16 := n.isLt
  rw [State.spriteBytes_length]
  omega

theorem State.drawn_drawn (s : State) (x y : RegIdx) (n : Nibble) : SpriteDrawn s.display (s.drawn x y n).1 (s.reg x)
    (s.reg y) (fun r => s.mem.read ((s.i.toNat + r) % 4096)) n.toNat := by
  intro p
  rw [← spriteHits_spriteBytes_iff]
  exact drawSprite_drawn s.display (s.reg x) (s.reg y) (s.spriteBytes n) (s.spriteBytes_length_le n) p

theorem State.drawn_collides_iff (s : State) (x y : RegIdx) (n : Nibble) : (s.drawn x y n).2 = true ↔
    SpriteCollides s.display (s.reg x) (s.reg y) (fun r => s.mem.read ((s.i.toNat + r) % 4096)) n.toNat := by
  simp only [SpriteCollides, ← spriteHits_spriteBytes_iff]
  exact drawSprite_collides_iff s.display (s.reg x) (s.reg y) (s.spriteBytes n) (s.spriteBytes_length_le n)

/-- Settles O39: the draw is computed from the old state; then the display is written, and VF with the collision. -/
theorem drwDrawsTheSpriteAtI : Obligations.DrwDrawsTheSpriteAtI := by
  intro x y n
  refine ⟨decodesFrom_drw x y n, fun s =>
    ⟨((s.setDisplay (s.drawn x y n).1).setFlag (flagByte (s.drawn x y n).2)).advance, rfl, s.drawn_drawn x y n,
      fun hhit => ?_, fun hmiss => ?_, rfl,
      ((changesOnly_setDisplay s _).trans (changesOnly_setReg _ flagReg _)).advance⟩⟩
  · rw [State.reg_advance, State.reg_setFlag, (s.drawn_collides_iff x y n).mpr hhit]
    rfl
  · rw [State.reg_advance, State.reg_setFlag, Bool.eq_false_iff.mpr (mt (s.drawn_collides_iff x y n).mp hmiss)]
    rfl

/-! Drawing twice. -/

/-- Inverting the hit pixels a second time restores them. -/
theorem SpriteDrawn.restores {d e f : Display} {x0 y0 : Byte} {b : Nat → Byte} {len : Nat}
    (h : SpriteDrawn d e x0 y0 b len) (k : SpriteDrawn e f x0 y0 b len) : f = d := by
  apply Display.ext_get
  intro p
  by_cases hhit : SpriteHits x0 y0 b len p
  · rw [(k p).1 hhit, (h p).1 hhit, Bool.not_not]
  · rw [(k p).2 hhit, (h p).2 hhit]

/-- After a draw on a clear display the lit pixels are the hit ones. -/
theorem SpriteDrawn.get_iff_of_blank {e : Display} {x0 y0 : Byte} {b : Nat → Byte} {len : Nat}
    (h : SpriteDrawn blankDisplay e x0 y0 b len) (p : Pixel) : e.get p = true ↔ SpriteHits x0 y0 b len p := by
  by_cases hhit : SpriteHits x0 y0 b len p
  · simp [(h p).1 hhit, hhit]
  · simp [(h p).2 hhit, hhit]

/-- A byte with a 1 bit is a byte other than 0, and bit `7 - col` for some column `col`. -/
theorem exists_column_iff_ne_zero (b : Byte) : (∃ col, col < 8 ∧ b.getLsbD (7 - col) = true) ↔ b ≠ 0 := by
  revert b
  decide

/-- A sprite hits some pixel exactly when one of its bytes has a 1 bit. -/
theorem exists_spriteHits_iff (x0 y0 : Byte) (bytes : List Byte) :
    (∃ p, SpriteHits x0 y0 (fun r => bytes.getD r 0) bytes.length p) ↔ ∃ b ∈ bytes, b ≠ 0 := by
  simp only [← mem_spritePixelsFrom_iff_hits, mem_spritePixelsFrom]
  constructor
  · rintro ⟨-, r, col, hr, hcol, hbit, -⟩
    exact ⟨bytes.getD r 0, List.getD_eq_getElem bytes 0 hr ▸ List.getElem_mem hr,
      (exists_column_iff_ne_zero _).mp ⟨col, hcol, hbit⟩⟩
  · rintro ⟨b, hb, hne⟩
    obtain ⟨r, hr, rfl⟩ := List.getElem_of_mem hb
    obtain ⟨col, hcol, hbit⟩ := (exists_column_iff_ne_zero _).mpr hne
    exact ⟨_, r, col, hr, hcol, (List.getD_eq_getElem bytes 0 hr).symm ▸ hbit, rfl⟩

/-- Settles O40: both draws invert the same pixels, and on a clear display the first lights exactly those. -/
theorem drawingTwiceRestoresTheDisplay : Obligations.DrawingTwiceRestoresTheDisplay := by
  intro d x0 y0 bytes hlen
  have hrows : bytes.length ≤ 32 := hlen.trans (by decide)
  have hblank := drawSprite_drawn blankDisplay x0 y0 bytes hrows
  refine ⟨(drawSprite_drawn d x0 y0 bytes hrows).restores (drawSprite_drawn _ x0 y0 bytes hrows), ?_, ?_⟩
  · rw [drawSprite_collides_iff _ _ _ _ hrows, ← exists_spriteHits_iff x0 y0 bytes]
    simp only [SpriteCollides, hblank.get_iff_of_blank, and_self]
  · refine Bool.eq_false_iff.mpr fun hcollides => ?_
    obtain ⟨p, -, hlit⟩ := (drawSprite_collides_iff _ _ _ _ hrows).mp hcollides
    rw [Display.get_blank] at hlit
    exact Bool.false_ne_true hlit

end Sys2Proof.Machine
end

section
/-! PROOFS. What the instructions may write, read off the table `writes` (40_instruction_cycle.md R86): the display, VF,
PC and the parts of the events (10_state.md R14, 40_instruction_cycle.md R84, R88, 44_display.md R156). -/

namespace Sys2Proof.Machine

/-- The frame of an instruction that answered a next state. -/
theorem exec_changesOnly {i : Instr} {s t : State} (h : exec i s = .next t) : ChangesOnly s t (writes s i) := by
  obtain ⟨u, hu, hframe⟩ := anInstructionChangesOnlyWhatItsRuleNames i s
  rw [h] at hu
  cases hu
  exact hframe

theorem mem_storedBytes {s : State} {n : Nat} {p : Part} (h : p ∈ storedBytes s n) : ∃ a, p = .byte a := by
  obtain ⟨k, -, rfl⟩ := List.mem_map.mp h
  exact ⟨_, rfl⟩

theorem mem_lowRegs {n : Nat} {p : Part} (h : p ∈ lowRegs n) : ∃ k, k < n ∧ p = .reg (BitVec.ofNat 4 k) := by
  obtain ⟨k, hk, rfl⟩ := List.mem_map.mp h
  exact ⟨k, List.mem_range.mp hk, rfl⟩

/-- The parts that are written by events only, never by an instruction. -/
def ofEventsOnly : Part → Bool
  | .key _ | .lastKey | .run | .pending | .outputs | .glyphs => true
  | .reg _ | .pc | .i | .slot _ | .sp | .dt | .st | .byte _ | .display | .wait | .waitReg | .draws => false

theorem ofEventsOnly_of_mem_writes {s : State} {i : Instr} {p : Part} (h : p ∈ writes s i) :
    ofEventsOnly p = false := by
  cases i with
  | ldB | ldMemVx =>
    rcases List.mem_cons.mp h with rfl | h
    · rfl
    · obtain ⟨a, rfl⟩ := mem_storedBytes h
      rfl
  | ldVxMem =>
    rcases List.mem_cons.mp h with rfl | h
    · rfl
    · obtain ⟨k, -, rfl⟩ := mem_lowRegs h
      rfl
  | _ =>
    simp only [writes, List.mem_cons, List.not_mem_nil, or_false] at h
    rcases h with rfl | rfl | rfl <;> rfl

theorem exec_samePart_of_eventsOnly {i : Instr} {s t : State} (h : exec i s = .next t) {p : Part}
    (hp : ofEventsOnly p = true) : SamePart s t p :=
  exec_changesOnly h p fun hmem => Bool.false_ne_true ((ofEventsOnly_of_mem_writes hmem).symm.trans hp)

/-! The display. -/

theorem eq_cls_or_drw_of_display_mem_writes {s : State} {i : Instr} (h : Part.display ∈ writes s i) :
    (∃ ign, i = .cls ign) ∨ ∃ x y n, i = .drw x y n := by
  cases i with
  | cls ign => exact .inl ⟨ign, rfl⟩
  | drw x y n => exact .inr ⟨x, y, n, rfl⟩
  | _ => simp [writes, storedBytes, lowRegs] at h

theorem State.pollKey_display (s : State) : s.pollKey.display = s.display :=
  changesOnly_pollKey s .display (by simp)

theorem exec_writes_display {i : Instr} {s t : State} (h : exec i s = .next t) (hne : t.display ≠ s.display) :
    (∃ ign, i = .cls ign) ∨ ∃ x y n, i = .drw x y n :=
  eq_cls_or_drw_of_display_mem_writes (not_not.mp fun hmem => hne (exec_changesOnly h .display hmem))

theorem deliver_writes_display {e : Event} {s t : State} (h : deliver e s = .next t) (hne : t.display ≠ s.display) :
    (e = .reset ∧ s.run = false) ∨ (e = .instrTick ∧ s.run = true ∧ s.wait = false ∧
      ∃ i, decodeWord s.fetch16 = .instr i ∧ ((∃ ign, i = .cls ign) ∨ ∃ x y n, i = .drw x y n)) := by
  cases e with
  | instrTick =>
    obtain ⟨-, rfl⟩ | ⟨-, -, rfl⟩ | ⟨hrun, hwait, i, hdecode, hexec⟩ | ⟨-, -, w, -, rfl⟩ := instrTick_cases h
    · exact absurd rfl hne
    · exact absurd s.pollKey_display hne
    · exact .inr ⟨rfl, hrun, hwait, i, hdecode, exec_writes_display hexec hne⟩
    · exact absurd rfl hne
  | reset =>
    cases h
    cases hrun : s.run with
    | false => exact .inl ⟨rfl, rfl⟩
    | true => exact absurd (by rw [State.requestReset_of_running hrun]) hne
  | timerTick => cases h; exact absurd (changesOnly_timerTick s .display (by simp)) hne
  | setKey k pressed => cases h; exact absurd (changesOnly_deliverKey s k pressed .display (by simp)) hne
  | load bytes => cases h; exact absurd (samePart_loadProgram (p := .display) (by simp) (by simp)) hne
  | start | stop | snapshot => cases h; exact absurd rfl hne

/-- Settles O41: only the rows of CLS and DRW list the display, and only `Reset` among the other events writes it. -/
theorem onlyClsAndDrwTouchTheDisplay : Obligations.OnlyClsAndDrwTouchTheDisplay := by
  refine ⟨fun i s t h hcls hdrw => ?_, fun s t h hne => deliver_writes_display (s := s.dequeue) h hne⟩
  by_contra hne
  obtain ⟨ign, rfl⟩ | ⟨x, y, n, rfl⟩ := exec_writes_display h hne
  · exact hcls ign rfl
  · exact hdrw x y n rfl

/-! VF. -/

theorem reg_mem_writes {s : State} {i : Instr} {r : RegIdx} (h : Part.reg r ∈ writes s i) :
    namesDestination r i = true ∨ writesFlag i = true := by
  cases i with
  | ldVxMem x =>
    obtain ⟨k, hk, hr⟩ := mem_lowRegs (List.mem_of_ne_of_mem (by simp) h)
    cases hr
    have hx : x.toNat < 16 := x.isLt
    simp only [regCount] at hk
    simp [namesDestination]
    omega
  | _ => simp_all [writes, storedBytes, namesDestination, writesFlag]

theorem flagByte_eq (c : Bool) : flagByte c = 0 ∨ flagByte c = 1 := by
  cases c with
  | false => exact .inl rfl
  | true => exact .inr rfl

/-- The six flag instructions end with a flag byte in VF. -/
theorem exec_writes_flag {i : Instr} {s t : State} (hi : writesFlag i = true) (h : exec i s = .next t) :
    ∃ c, t.reg 0xF = flagByte c := by
  cases i with
  | addReg | subReg | shr | subnReg | shl =>
    cases h
    exact ⟨_, State.flag_setRegAndFlag_advance s _ _ _⟩
  | drw =>
    cases h
    exact ⟨_, (State.reg_setFlag _ _ _).trans (if_pos rfl)⟩
  | _ => cases hi

/-- Settles O52: the six end with a flag byte; for every other instruction VF is not in its row of `writes`. -/
theorem exactlySixInstructionsWriteTheFlag : Obligations.ExactlySixInstructionsWriteTheFlag := by
  intro i s
  obtain ⟨t, ht⟩ := exec_answers_next i s
  refine ⟨t, ht, fun hflag => ?_, fun hflag hdest => ?_⟩
  · obtain ⟨c, hc⟩ := exec_writes_flag hflag ht
    rw [hc]
    exact flagByte_eq c
  · refine exec_changesOnly ht (.reg 0xF) fun hmem => ?_
    rcases reg_mem_writes hmem with hnamed | hsix
    · exact Bool.false_ne_true (hdest.symm.trans hnamed)
    · exact Bool.false_ne_true (hflag.symm.trans hsix)

/-! PC. -/

/-- A skip advances by 4 exactly when its condition holds. -/
theorem skip_advances {i : Instr} {s : State} {c : Bool} (hexec : exec i s = .next (s.skipIf c).advance)
    (hc : c = true ↔ skipTaken s i) :
    ∃ t, exec i s = .next t ∧ (skipTaken s i → t.pc = s.pc + 4) ∧ (¬ skipTaken s i → t.pc = s.pc + 2) := by
  refine ⟨_, hexec, fun htaken => ?_, fun huntaken => ?_⟩
  · rw [State.skipIf_advance_pc, if_pos (hc.mpr htaken)]
  · rw [State.skipIf_advance_pc, if_neg (mt hc.mp huntaken)]

/-- Settles O50: the six skips by their conditions; every other instruction ends with the advance alone. -/
theorem everyOtherInstructionAdvances : Obligations.EveryOtherInstructionAdvances := by
  intro i s hi
  cases i with
  | ret | jp | call | jpV0 => cases hi
  | seImm | seReg => exact skip_advances rfl beq_iff_eq
  | sneImm | sneReg => exact skip_advances rfl bne_iff_ne
  | skp x => exact skip_advances rfl (by rw [State.keyIndex_eq, skipTaken])
  | sknp x => exact skip_advances rfl (by rw [State.keyIndex_eq, skipTaken, Bool.not_eq_true'])
  | ldMemVx x => exact ⟨_, rfl, False.elim, fun _ => by rw [State.advance_pc, State.storeRegs_eq]⟩
  | ldVxMem x => exact ⟨_, rfl, False.elim, fun _ => by rw [State.advance_pc, State.loadRegs_eq]⟩
  | _ => exact ⟨_, rfl, False.elim, fun _ => rfl⟩

end Sys2Proof.Machine
end

section
/-! PROOFS. Each event changes only its own state (00_scope.md, the table of agents after R5). -/

namespace Sys2Proof.Machine

/-- A change within the row of an event leaves what the row leaves, and the queue. -/
theorem ChangesOnly.samePart_of_event {e : Event} {s t : State} {ws : List Part} (h : ChangesOnly s t ws)
    (hws : ∀ q ∈ ws, mayChange e q = true ∧ q ≠ .pending) {p : Part} (hp : mayChange e p = false ∨ p = .pending) :
    SamePart s t p := by
  refine h p fun hmem => ?_
  obtain ⟨hmay, hne⟩ := hws p hmem
  rcases hp with hp | hp
  · exact Bool.false_ne_true (hp.symm.trans hmay)
  · exact hne hp

theorem instrTick_samePart {s t : State} (h : instrTick s = .next t) {p : Part}
    (hp : mayChange .instrTick p = false ∨ p = .pending) : SamePart s t p := by
  obtain ⟨-, rfl⟩ | ⟨-, -, rfl⟩ | ⟨-, -, i, -, hexec⟩ | ⟨-, -, w, -, rfl⟩ := instrTick_cases h
  · exact samePart_refl t p
  · exact (changesOnly_pollKey s).samePart_of_event (by simp [mayChange]) hp
  · refine exec_samePart_of_eventsOnly hexec ?_
    rcases hp with hp | rfl
    · cases p <;> simp_all [mayChange, ofEventsOnly]
    · rfl
  · have hframe : ChangesOnly s (s.passUnrecognized w) [.outputs, .pc] := (changesOnly_emit s _).advance
    exact hframe.samePart_of_event (by simp [mayChange]) hp

/-- No `Load` writes below 0x200, and above 0xFFF there is no memory. -/
theorem read_loadProgram_outside {s : State} (hs : MemoryCanonical s) (bytes : List Byte) {a : Nat}
    (ha : a < Config.programBase ∨ Config.memSize ≤ a) : (s.loadProgram bytes).mem.read a = s.mem.read a := by
  rcases ha with hlo | hhi
  · cases hload : s.acceptsLoad bytes with
    | false =>
      rw [State.loadProgram_of_refused hload]
      rfl
    | true =>
      obtain ⟨-, -, hlen⟩ := (State.acceptsLoad_iff s bytes).mp hload
      rw [State.loadProgram_eq, if_pos hload, Memory.read_replaceProgram _ _ hlen a (hlo.trans (by decide)), if_pos hlo]
  · rw [Memory.read_beyond _ 0 a (loadProgram_keeps_memory_canonical hs bytes) hhi, Memory.read_beyond _ 0 a hs hhi]

theorem loadProgram_samePart {s : State} (bytes : List Byte) {p : Part} (hs : ∀ a, p = .byte a → MemoryCanonical s)
    (hp : mayChange (.load bytes) p = false ∨ p = .pending) : SamePart s (s.loadProgram bytes) p := by
  by_cases hbyte : ∃ a, p = .byte a
  · obtain ⟨a, rfl⟩ := hbyte
    have ha : a < Config.programBase ∨ Config.memSize ≤ a := by
      simpa [mayChange, or_iff_not_imp_left] using hp
    exact read_loadProgram_outside (hs a rfl) bytes ha
  · refine samePart_loadProgram (fun a he => hbyte ⟨a, he⟩) ?_
    rintro rfl
    simp [mayChange] at hp

theorem requestReset_samePart (s : State) {p : Part} (hp : mayChange .reset p = false ∨ p = .pending) :
    SamePart s s.requestReset p := by
  cases hrun : s.run with
  | true =>
    rw [State.requestReset_of_running hrun]
    exact samePart_refl s p
  | false =>
    rw [State.requestReset_of_stopped hrun]
    cases p with
    | byte a =>
      have ha : ¬ a < 0x50 := by simpa [mayChange] using hp
      exact (congrArg (Memory.read · a) (State.reinitialise_mem s)).trans
        ((State.read_reinitialise_mem s a).trans (if_neg ha))
    | run | draws | outputs | pending | glyphs => rfl
    | _ => simp [mayChange] at hp

/-- The canonical form is needed for bytes of memory only: a `Load` drops what is listed above 0xFFF. -/
theorem deliver_samePart {e : Event} {s t : State} {p : Part} (hs : ∀ a, p = .byte a → MemoryCanonical s)
    (h : deliver e s = .next t) (hp : mayChange e p = false ∨ p = .pending) : SamePart s t p := by
  cases e with
  | instrTick => exact instrTick_samePart h hp
  | timerTick => cases h; exact (changesOnly_timerTick s).samePart_of_event (by simp [mayChange]) hp
  | setKey k pressed => cases h; exact (changesOnly_deliverKey s k pressed).samePart_of_event (by simp [mayChange]) hp
  | load bytes => cases h; exact loadProgram_samePart bytes hs hp
  | start => cases h; exact (changesOnly_start s).samePart_of_event (by simp [mayChange]) hp
  | stop => cases h; exact (changesOnly_stop s).samePart_of_event (by simp [mayChange]) hp
  | reset => cases h; exact requestReset_samePart s hp
  | snapshot => cases h; exact (changesOnly_emit s _).samePart_of_event (by simp [mayChange]) hp

/-- The event that is performed is the one that leaves the queue. -/
theorem step_pending {s t : State} (h : step s = .next t) : t.pending = s.pending.tail :=
  deliver_samePart (s := s.dequeue) (p := .pending) (by simp) h (.inr rfl)

/-- Settles O51: the event leaves the queue, and performing it keeps the queue and every part its row keeps. -/
theorem eachEventChangesOnlyItsOwnState : Obligations.EachEventChangesOnlyItsOwnState := by
  intro s t hs hstep
  refine ⟨step_pending hstep, fun p hp => ?_⟩
  have hpending : p ∉ [Part.pending] := fun hmem => by
    rw [List.mem_singleton.mp hmem] at hp
    exact Bool.false_ne_true (hp.symm.trans (by cases s.nextEvent <;> rfl))
  exact samePart_trans (changesOnly_dequeue s p hpending)
    (deliver_samePart (s := s.dequeue) (fun _ _ => hs) hstep (.inl hp))

end Sys2Proof.Machine
end

section
/-! PROOFS. Runs without end and runs of a few steps: the self-jump, the key wait and the boot (40_instruction_cycle.md
R91, R92, 70_reset_and_hazards.md R205, R213). -/

namespace Sys2Proof.Machine

/-- A state that steps to itself is a final one. -/
theorem core_run_of_step_self {s : State} (h : step s = .next s) (n : Nat) : core.run n s = .next s := by
  induction n with
  | zero => rfl
  | succ n ih => rw [core_run_succ n h, ih]

/-- Settles O57: the jump writes PC with what it holds. -/
theorem selfJumpIsFinal : Obligations.SelfJumpIsFinal := by
  intro s nnn hpending hrun hwait hdecode hpc
  have htarget : absAddr nnn = s.pc := BitVec.eq_of_toNat_eq ((absAddr_toNat nnn).trans hpc.symm)
  refine core_run_of_step_self ?_
  calc step s = exec (.jp nnn) s.dequeue := step_of_decode (State.nextEvent_of_nil hpending) hrun hwait hdecode
    _ = .next (s.setPc (absAddr nnn)) := by rw [State.dequeue_of_nil hpending, exec, execJp]
    _ = .next s := by rw [htarget, State.setPc]

/-! The key wait. -/

/-- What may change while a key wait goes on: KEYS, memory, the timers, RUN, the queue and the outputs. -/
def KeptInWait (s t : State) : Prop :=
  ∀ p, (∀ k, p ≠ .key k) → (∀ a, p ≠ .byte a) → p ∉ [Part.dt, .st, .run, .pending, .outputs] → SamePart s t p

theorem KeptInWait.trans {s t u : State} (h : KeptInWait s t) (k : KeptInWait t u) : KeptInWait s u :=
  fun p hkey hbyte hp => samePart_trans (h p hkey hbyte hp) (k p hkey hbyte hp)

theorem ChangesOnly.keptInWait {s t : State} {ws : List Part} (h : ChangesOnly s t ws)
    (hws : ∀ q ∈ ws, q ∈ [Part.dt, .st, .run, .pending, .outputs] ∨ ∃ k, q = .key k) : KeptInWait s t := by
  intro p hkey _ hp
  refine h p fun hmem => ?_
  rcases hws p hmem with hlisted | ⟨k, hk⟩
  · exact hp hlisted
  · exact hkey k hk

/-- Without a press and without a `Reset` the wait goes on. -/
theorem deliver_in_wait {e : Event} {s t : State} (hwait : s.wait = true) (hkey : s.lastKey = none)
    (hreset : e ≠ .reset) (hpress : ∀ k, e ≠ .setKey k true) (h : deliver e s = .next t) : KeptInWait s t := by
  cases e with
  | instrTick =>
    obtain ⟨-, rfl⟩ | ⟨-, -, rfl⟩ | ⟨-, hno, -⟩ | ⟨-, hno, -⟩ := instrTick_cases h
    · exact fun p _ _ _ => samePart_refl t p
    · rw [State.pollKey_none hkey]
      exact fun p _ _ _ => samePart_refl s p
    · exact absurd (hno.symm.trans hwait) Bool.false_ne_true
    · exact absurd (hno.symm.trans hwait) Bool.false_ne_true
  | timerTick => cases h; exact (changesOnly_timerTick s).keptInWait (by simp)
  | setKey k pressed =>
    cases h
    cases pressed with
    | true => exact absurd rfl (hpress k)
    | false => exact (changesOnly_setKeyBit s k false).keptInWait (by simp)
  | load bytes =>
    cases h
    exact fun p _ hbyte hp => samePart_loadProgram hbyte (fun he => hp (by simp [he]))
  | start => cases h; exact (changesOnly_start s).keptInWait (by simp)
  | stop => cases h; exact (changesOnly_stop s).keptInWait (by simp)
  | reset => exact absurd rfl hreset
  | snapshot => cases h; exact (changesOnly_emit s _).keptInWait (by simp)

/-- Settles O46: the wait goes on at every step, by induction on their number; with no event pending the step is a poll
that finds no press. -/
theorem keyWaitLastsUntilAPress : Obligations.KeyWaitLastsUntilAPress := by
  refine ⟨fun s n => ?_, fun s hpending hrun hwait hkey => core_run_of_step_self ?_⟩
  · induction n generalizing s with
    | zero => exact fun hwait hkey _ => ⟨s, rfl, hwait, hkey, fun p _ _ _ => samePart_refl s p⟩
    | succ n ih =>
      intro hwait hkey hevents
      have hnext : s.nextEvent ≠ .reset ∧ ∀ k, s.nextEvent ≠ .setKey k true := by
        cases hpending : s.pending with
        | nil => simp [State.nextEvent_of_nil hpending]
        | cons e rest => rw [State.nextEvent_of_cons hpending]; exact hevents e (by simp [hpending])
      obtain ⟨-, hsteps⟩ := everyStepHasANextState
      obtain ⟨u, hu⟩ := hsteps s
      have hkept : KeptInWait s u := ((changesOnly_dequeue s).keptInWait (by simp)).trans
        (deliver_in_wait (s := s.dequeue) hwait hkey hnext.1 hnext.2 hu)
      obtain ⟨t, ht, htwait, htkey, hframe⟩ := ih u ((hkept .wait (by simp) (by simp) (by simp)).trans hwait)
        ((hkept .lastKey (by simp) (by simp) (by simp)).trans hkey)
        (fun e he => hevents e (List.mem_of_mem_tail (step_pending hu ▸ he)))
      exact ⟨t, (core_run_succ n hu).trans ht, htwait, htkey, hkept.trans hframe⟩
  · obtain ⟨-, hpoll, -⟩ := instrTickIsOneInstructionCycle s (State.nextEvent_of_nil hpending)
    rw [hpoll hrun hwait, State.dequeue_of_nil hpending, State.pollKey_none hkey]

/-! The boot. -/

/-- Settles O59: `Load` fills the program region, `Start` sets RUN, and PC stands at the program's first byte. -/
theorem powerOnLoadStartRunsTheProgram : Obligations.PowerOnLoadStartRunsTheProgram := by
  intro g init b0 b1 bytes hlen
  obtain ⟨u, hu, hupending, haccept, -⟩ := loadFillsTheProgramRegionOrFails
    { State.powerOn g init with pending := [.load (b0 :: b1 :: bytes), .start] } _ _ rfl
  obtain ⟨huout, humem, -, huframe⟩ := haccept ⟨State.powerOn_run g init, by simp, hlen⟩
  obtain ⟨hstart, -⟩ := startStopAndSnapshot
  obtain ⟨t, ht, htrun, htpending, htframe⟩ := hstart u [] hupending
  have htwait : t.wait = false := (htframe .wait (by simp)).trans (huframe .wait (by simp) (by simp))
  have htpc : t.pc = 0x0200 := (htframe .pc (by simp)).trans (huframe .pc (by simp) (by simp))
  have htmem (a : Nat) (hlo : 0x200 ≤ a) (hhi : a < 4096) : t.mem.read a = (b0 :: b1 :: bytes).getD (a - 0x200) 0 :=
    (htframe (.byte a) (by simp)).trans (humem a hlo hhi)
  have htout : t.outputs = [.loadResult true] :=
    (htframe .outputs (by simp)).trans (huout.trans (by rw [State.powerOn_outputs]; rfl))
  refine ⟨t, ?_, htrun, htwait, htpc, htpending, htout, ?_⟩
  · rw [core_run_succ 1 hu, core_run_succ 0 ht]
    rfl
  · have h0 : t.mem.read 512 = b0 := htmem 512 (by decide) (by decide)
    have h1 : t.mem.read 513 = b1 := htmem 513 (by decide) (by decide)
    simpa [htpc, h0, h1] using t.fetch16_toNat

end Sys2Proof.Machine
end

section
/-! PROOFS. What the sound timer and an idle WAITREG do not influence (10_state.md R35, R38), as a comparison of two
runs that differ in these two parts. -/

namespace Sys2Proof.Machine

/-- `s` with other values of ST and WAITREG. -/
def State.withHidden (s : State) (b : Byte) (r : RegIdx) : State := { s with st := b, waitReg := r }

theorem State.storeRegs_withHidden (s : State) (b : Byte) (r : RegIdx) (n : Nat) :
    (s.withHidden b r).storeRegs n = (s.storeRegs n).withHidden b r := by
  induction n with
  | zero => rfl
  | succ n ih => rw [State.storeRegs_succ, State.storeRegs_succ, ih]; rfl

theorem State.loadRegs_withHidden (s : State) (b : Byte) (r : RegIdx) (n : Nat) :
    (s.withHidden b r).loadRegs n = (s.loadRegs n).withHidden b r := by
  induction n with
  | zero => rfl
  | succ n ih => rw [State.loadRegs_succ, State.loadRegs_succ, ih]; rfl

/-- Where `s` goes to `t`, the state with ST `b` and WAITREG `r` goes to one that again differs from `t` in these parts
at most; in ST only if `b` did, in WAITREG only if `r` did, and outside a wait only in an idle WAITREG. -/
def GoesAlike (s t : State) (b : Byte) (r : RegIdx) (o : Host.Outcome State Fault Refusal) : Prop :=
  ∃ b' r', o = .next (t.withHidden b' r') ∧ (b = s.st → b' = t.st) ∧ (r = s.waitReg → r' = t.waitReg) ∧
    (s.wait = false → t.wait = false ∨ r' = t.waitReg)

/-- Most of what the machine does carries the two parts along. -/
theorem goesAlike_of_carried {s t : State} {b : Byte} {r : RegIdx} {o : Host.Outcome State Fault Refusal}
    (ho : o = .next (t.withHidden b r)) (hst : t.st = s.st) (hreg : t.waitReg = s.waitReg)
    (hwait : s.wait = false → t.wait = false) : GoesAlike s t b r o :=
  ⟨b, r, ho, fun hb => hb.trans hst.symm, fun hr => hr.trans hreg.symm, fun h => .inl (hwait h)⟩

/-- No instruction reads ST or WAITREG; LD ST, Vx and LD Vx, K write theirs with a value that depends on neither. -/
theorem exec_goesAlike {i : Instr} {s t : State} (b : Byte) (r : RegIdx) (h : exec i s = .next t) :
    GoesAlike s t b r (exec i (s.withHidden b r)) := by
  cases i with
  | ldStVx x => cases h; exact ⟨s.reg x, r, rfl, fun _ => rfl, id, .inl⟩
  | ldVxK x => cases h; exact ⟨b, x, rfl, id, fun _ => rfl, fun _ => .inr rfl⟩
  | ldMemVx x =>
    cases h
    refine goesAlike_of_carried ?_ ?_ ?_ ?_
    · rw [exec, execLdMemVx, State.storeRegs_withHidden]
      rfl
    all_goals rw [State.storeRegs_eq]
    exacts [rfl, rfl, id]
  | ldVxMem x =>
    cases h
    refine goesAlike_of_carried ?_ ?_ ?_ ?_
    · rw [exec, execLdVxMem, State.loadRegs_withHidden]
      rfl
    all_goals rw [State.loadRegs_eq]
    exacts [rfl, rfl, id]
  | seImm | sneImm | seReg | sneReg | skp | sknp =>
    cases h
    simp only [exec, execSeImm, execSneImm, execSeReg, execSneReg, execSkp, execSknp, State.skipIf_eq]
    exact goesAlike_of_carried rfl rfl rfl id
  | _ => cases h; exact goesAlike_of_carried rfl rfl rfl id

/-- A poll reads WAITREG and nothing of ST. -/
theorem pollKey_goesAlike (s : State) (b : Byte) :
    GoesAlike s s.pollKey b s.waitReg (.next (s.withHidden b s.waitReg).pollKey) := by
  cases hkey : s.lastKey with
  | none =>
    rw [State.pollKey_none hkey, State.pollKey_none (s := s.withHidden b s.waitReg) hkey]
    exact goesAlike_of_carried rfl rfl rfl id
  | some k =>
    rw [State.pollKey_some hkey, State.pollKey_some (s := s.withHidden b s.waitReg) hkey]
    exact goesAlike_of_carried rfl rfl rfl fun _ => rfl

theorem instrTick_goesAlike {s t : State} {b : Byte} {r : RegIdx} (hr : s.wait = true → r = s.waitReg)
    (h : instrTick s = .next t) : GoesAlike s t b r (instrTick (s.withHidden b r)) := by
  obtain ⟨hrun, rfl⟩ | ⟨hrun, hwait, rfl⟩ | ⟨hrun, hwait, i, hdecode, hexec⟩ | ⟨hrun, hwait, w, hdecode, rfl⟩ :=
    instrTick_cases h
  · rw [instrTick_stopped (s := t.withHidden b r) hrun]
    exact goesAlike_of_carried rfl rfl rfl id
  · rw [hr hwait, instrTick_waiting (s := s.withHidden b s.waitReg) hrun hwait]
    exact pollKey_goesAlike s b
  · rw [instrTick_running (s := s.withHidden b r) hrun hwait, instrCycle_of_instr (s := s.withHidden b r) hdecode]
    exact exec_goesAlike b r hexec
  · rw [instrTick_running (s := s.withHidden b r) hrun hwait,
      instrCycle_of_unrecognized (s := s.withHidden b r) hdecode]
    exact goesAlike_of_carried rfl rfl rfl id

theorem requestReset_goesAlike (s : State) (b : Byte) (r : RegIdx) :
    GoesAlike s s.requestReset b r (.next (s.withHidden b r).requestReset) := by
  cases hrun : s.run with
  | true =>
    rw [State.requestReset_of_running hrun, State.requestReset_of_running (s := s.withHidden b r) hrun]
    exact goesAlike_of_carried rfl rfl rfl id
  | false =>
    rw [State.requestReset_of_stopped hrun, State.requestReset_of_stopped (s := s.withHidden b r) hrun]
    exact ⟨0, 0, rfl, fun _ => rfl, fun _ => rfl, fun _ => .inl rfl⟩

theorem deliver_goesAlike {e : Event} {s t : State} {b : Byte} {r : RegIdx} (hr : s.wait = true → r = s.waitReg)
    (h : deliver e s = .next t) : GoesAlike s t b r (deliver e (s.withHidden b r)) := by
  cases e with
  | instrTick => exact instrTick_goesAlike hr h
  | timerTick =>
    cases h
    rw [deliver, State.timerTick_eq, State.timerTick_eq]
    exact ⟨if s.run then countDown b else b, r, rfl, fun hb => hb ▸ rfl, id, .inl⟩
  | setKey k pressed =>
    cases h
    rw [deliver, State.deliverKey_eq, State.deliverKey_eq]
    exact goesAlike_of_carried rfl rfl rfl id
  | load bytes =>
    cases h
    rw [deliver, State.loadProgram_eq, State.loadProgram_eq]
    exact goesAlike_of_carried rfl rfl rfl id
  | reset => cases h; exact requestReset_goesAlike s b r
  | start | stop | snapshot => cases h; exact goesAlike_of_carried rfl rfl rfl id

theorem step_goesAlike {s t : State} {b : Byte} {r : RegIdx} (hr : s.wait = true → r = s.waitReg)
    (h : step s = .next t) : GoesAlike s t b r (step (s.withHidden b r)) :=
  deliver_goesAlike (s := s.dequeue) hr h

/-- Settles O53: the two states share WAITREG, so the next two do. -/
theorem soundTimerIsNeverObserved : Obligations.SoundTimerIsNeverObserved := by
  intro s s' t hsame hstep
  obtain ⟨b, r, hs', -, hreg, -⟩ := step_goesAlike (b := s'.st) (r := s.waitReg) (fun _ => rfl) hstep
  rw [hreg rfl] at hs'
  rw [hsame]
  exact ⟨t.withHidden b t.waitReg, hs', rfl⟩

/-- Settles O54: the two states share ST, so the next two do, and outside a wait WAITREG is idle in both. -/
theorem waitRegIsNotObservedOutsideAWait : Obligations.WaitRegIsNotObservedOutsideAWait := by
  rintro s s' t (rfl | ⟨hwait, hsame⟩) hstep
  · exact ⟨t, hstep, .inl rfl⟩
  · have hidle : s.wait = true → s'.waitReg = s.waitReg := fun h => absurd (hwait.symm.trans h) Bool.false_ne_true
    obtain ⟨b, r, hs', hst, -, hafter⟩ := step_goesAlike (b := s.st) (r := s'.waitReg) hidle hstep
    rw [hst rfl] at hs'
    rw [hsame]
    refine ⟨t.withHidden t.st r, hs', ?_⟩
    rcases hafter hwait with htwait | rfl
    · exact .inr ⟨htwait, rfl⟩
    · exact .inl rfl

end Sys2Proof.Machine
end
